-- ==== Sys2Proof/Word.lean ====
section
/-! DEFINITION. The widths of the values of SHA1 CORE (00_scope R5, R6, R8; 30_encoding R48). All are unsigned. -/

namespace Sys2Proof

/-- A word: 32 bits, all arithmetic modulo 2^32 (R7). -/
abbrev Word := BitVec 32

/-- A byte, 0..255 (R8). -/
abbrev Byte := BitVec 8

/-- A 64-bit value: the byte counter LEN (R22) and the length field of the padding (R58). -/
abbrev Dword := BitVec 64

/-- A byte address in the register space, 8 bits (R34). -/
abbrev Addr := BitVec 8

/-- The transaction word T of R48, 41 bits. -/
abbrev TWord := BitVec 41

end Sys2Proof
end

