-- ==== Sys2Proof/Machine/Bus.lean ====
section
/-! DEFINITION. What crosses the port (20_memory R35, 30_encoding R48) and the five protocol errors (60_exceptions R92). -/

namespace Sys2Proof.Machine

/-- One bus transaction: the signals `we`, `addr`, `wdata` of R35. The core sees these three, not a 41-bit word (R48). -/
structure Transaction where
  we    : Bool
  addr  : Addr
  wdata : Word
  deriving DecidableEq, Repr

/-- What the host does to the core: it presents a transaction or asserts `rst` (00_scope R11 (1), 70_reset R103). -/
inductive HostEvent where
  | reset
  | transaction (t : Transaction)
  deriving DecidableEq, Repr

/-- The protocol errors of R92. -/
inductive ProtocolError where
  /-- A write to CMD whose opcode is 0x05..0xFF. -/
  | eOpcode
  /-- A write to CMD with a known opcode and a reserved field that is not zero. -/
  | eRsvd
  /-- PUSHB, PUSHW or FINAL outside ABSORB; a digest or hex read outside DONE. -/
  | ePhase
  /-- An aligned address with no register of that access kind. -/
  | eAddr
  /-- `addr[1:0] != 0`. -/
  | eAlign
  deriving DecidableEq, Repr

/-- The code recorded in ERRCODE (R92); 0 means no error, 6 and 7 are never written. -/
def ProtocolError.code : ProtocolError → BitVec 3
  | .eOpcode => 1
  | .eRsvd   => 2
  | .ePhase  => 3
  | .eAddr   => 4
  | .eAlign  => 5

/-- `addr[1:0] = 0` (R40). -/
def aligned (a : Addr) : Bool := a.extractLsb' 0 2 == 0#2

end Sys2Proof.Machine
end

