-- ==== Sys2Proof/Syntax.lean ====
section
/-! DEFINITION. The seven host operations, one constructor per row of the opcode table (30_encoding R47, R51). -/

namespace Sys2Proof

/-- An operation: a decoded transaction (R47). The operands have exactly the widths of R50, so every value of the
type is one the encoding admits. -/
inductive Instr where
  /-- NOP: write 0x00000000 to CMD (R77). -/
  | nop
  /-- INIT: write 0x00000001 to CMD; starts a message (R78). -/
  | init
  /-- PUSHB imm8: write `imm8 * 256 + 2` to CMD; appends one byte (R79). -/
  | pushb (imm8 : Byte)
  /-- FINAL: write 0x00000003 to CMD; ends the message (R80). -/
  | final
  /-- CLRERR: write 0x00000004 to CMD; clears the error flag (R81). -/
  | clrerr
  /-- PUSHW imm32: write imm32 to DIN; appends four bytes, most significant first (R82). -/
  | pushw (imm32 : Word)
  /-- RD addr: read one register (R83). -/
  | rd (addr : Addr)
  deriving DecidableEq, Repr

end Sys2Proof
end

