-- ==== Sys2Proof/WellFormed.lean ====
section
/-! DEFINITION. What is well formed: an operation (R50: every operand value is legal) and a transaction (R53: the
complete list of illegal ones; R48: the canonical form of a read). -/

namespace Sys2Proof

/-- Every value of the three operand forms is legal (R50): a read of an address with no register is still an RD,
"whether the address is readable is decided by its semantics, not by the decoder" (R51). -/
def Instr.wellFormed : Instr → Bool
  | .nop     => true
  | .init    => true
  | .pushb _ => true
  | .final   => true
  | .clrerr  => true
  | .pushw _ => true
  | .rd _    => true

namespace Machine

/-- The two addresses a write may go to: CMD 0x00 and DIN 0x0C (R25). -/
def Transaction.writable (t : Transaction) : Bool := t.addr == 0x00#8 || t.addr == 0x0C#8

/-- A write to CMD has an opcode in 0x00..0x04 (R51). -/
def Transaction.opcodeKnown (t : Transaction) : Bool := t.addr != 0x00#8 || t.wdata.toNat % 256 ≤ 4

/-- A write to CMD has `wdata[31:16] = 0` (R49). -/
def Transaction.zeroFieldClear (t : Transaction) : Bool := t.addr != 0x00#8 || t.wdata.toNat < 65536

/-- A write to CMD with an opcode other than PUSHB has `wdata[15:8] = 0` (R49). -/
def Transaction.imm8Clear (t : Transaction) : Bool :=
  t.addr != 0x00#8 || t.wdata.toNat % 256 == 2 || t.wdata.toNat / 256 % 256 == 0

/-- A transaction that is one of the seven operations: every read, and every write outside the list of R53. -/
def Transaction.wellFormed (t : Transaction) : Bool :=
  !t.we || (aligned t.addr && t.writable && t.opcodeKnown && t.zeroFieldClear && t.imm8Clear)

/-- The canonical form: the ignored `wdata` of a read is written as 0 (R48). -/
def Transaction.canonical (t : Transaction) : Bool := t.we || t.wdata == 0#32

end Machine
end Sys2Proof
end

