-- ==== Sys2Proof/Decode.lean ====
section
/-! DEFINITION. The decoder, total on every transaction and rejecting by the error's name (20_memory R38, 30_encoding R51 to
R53), the encoder (R48, R49, R51), the opcode table as data (R51), and the 41-bit word T (R48). -/

namespace Sys2Proof
open Machine

/-- The opcode field of a command word, `v[7:0]` (R49). -/
def opcodeOf (v : Word) : Byte := v.extractLsb' 0 8

/-- The imm8 field of a command word, `v[15:8]` (R49). -/
def imm8Of (v : Word) : Byte := v.extractLsb' 8 8

/-- The zero field of a command word, `v[31:16]` (R49). -/
def zeroOf (v : Word) : BitVec 16 := v.extractLsb' 16 16

/-- A command word `{zero, imm8, opcode}` with a zero field of 0 (R49). -/
def commandWord (imm8 opcode : Byte) : Word := 0#16 ++ imm8 ++ opcode

/-- Decoding of a write to CMD, its checks in the order of R52. -/
def decodeCommand (v : Word) : Except ProtocolError Instr :=
  if 0x04#8 < opcodeOf v then .error .eOpcode
  else if zeroOf v ≠ 0 then .error .eRsvd
  else if opcodeOf v ≠ 0x02#8 ∧ imm8Of v ≠ 0 then .error .eRsvd
  else if opcodeOf v = 0x00#8 then .ok .nop
  else if opcodeOf v = 0x01#8 then .ok .init
  else if opcodeOf v = 0x02#8 then .ok (.pushb (imm8Of v))
  else if opcodeOf v = 0x03#8 then .ok .final
  else .ok .clrerr

/-- Decoding of a transaction: every read is an RD (R51), a write is checked in the order of R38. -/
def decode (t : Transaction) : Except ProtocolError Instr :=
  if t.we = false then .ok (.rd t.addr)
  else if aligned t.addr = false then .error .eAlign
  else if t.addr = 0x00#8 then decodeCommand t.wdata
  else if t.addr = 0x0C#8 then .ok (.pushw t.wdata)
  else .error .eAddr

/-- Encoding, in canonical form (R48, R51). -/
def encode : Instr → Transaction
  | .nop         => ⟨true, 0x00#8, commandWord 0 0x00⟩
  | .init        => ⟨true, 0x00#8, commandWord 0 0x01⟩
  | .pushb imm8  => ⟨true, 0x00#8, commandWord imm8 0x02⟩
  | .final       => ⟨true, 0x00#8, commandWord 0 0x03⟩
  | .clrerr      => ⟨true, 0x00#8, commandWord 0 0x04⟩
  | .pushw imm32 => ⟨true, 0x0C#8, imm32⟩
  | .rd addr     => ⟨false, addr, 0#32⟩

/-- `T = {we, addr, wdata}` (R48). -/
def wordOf (t : Transaction) : TWord := BitVec.ofBool t.we ++ t.addr ++ t.wdata

/-- The fields of T: we is bit 40, addr bits 39:32, wdata bits 31:0 (R48). -/
def transactionOf (w : TWord) : Transaction := ⟨w.getLsbD 40, w.extractLsb' 32 8, w.extractLsb' 0 32⟩

/-- The operation a 41-bit word stands for. -/
def decodeWord (w : TWord) : Except ProtocolError Instr := decode (transactionOf w)

/-- The 41-bit word of an operation. -/
def encodeWord (i : Instr) : TWord := wordOf (encode i)

/-- The word T that the lowest `nbits` bits of `w` give, every bit above being 0; none where a bit above bit 40 is set,
since T has 41 bits (R48; log 11). -/
def tableWord (nbits w : Nat) : Option TWord :=
  if w % 2 ^ nbits < 2 ^ 41 then some (BitVec.ofNat 41 (w % 2 ^ nbits)) else none

/-- The operation the decoder reads from a word numbered as the opcode table numbers it. -/
def decodeTableWord (nbits w : Nat) : Option Instr :=
  match tableWord nbits w with
  | some t => (decodeWord t).toOption
  | none   => none

/-- One row of the opcode map of R51: a word T is the row's operation when `T AND mask = pattern`. -/
structure OpcodeRow where
  mnemonic : String
  mask     : TWord
  pattern  : TWord
  deriving DecidableEq, Repr

/-- The opcode map of R51, row by row. -/
def opcodeTable : List OpcodeRow :=
  [ ⟨"NOP",    0x1FFFFFFFFFF#41, 0x10000000000#41⟩
  , ⟨"INIT",   0x1FFFFFFFFFF#41, 0x10000000001#41⟩
  , ⟨"PUSHB",  0x1FFFFFF00FF#41, 0x10000000002#41⟩
  , ⟨"FINAL",  0x1FFFFFFFFFF#41, 0x10000000003#41⟩
  , ⟨"CLRERR", 0x1FFFFFFFFFF#41, 0x10000000004#41⟩
  , ⟨"PUSHW",  0x1FF00000000#41, 0x10C00000000#41⟩
  , ⟨"RD",     0x10000000000#41, 0x00000000000#41⟩ ]

/-- `(T AND mask) = match` (R51). -/
def OpcodeRow.matchesWord (r : OpcodeRow) (w : TWord) : Bool := w &&& r.mask == r.pattern

/-- The mnemonic of an operation, as the opcode table spells it. -/
def mnemonicOf : Instr → String
  | .nop     => "NOP"
  | .init    => "INIT"
  | .pushb _ => "PUSHB"
  | .final   => "FINAL"
  | .clrerr  => "CLRERR"
  | .pushw _ => "PUSHW"
  | .rd _    => "RD"

end Sys2Proof
end

