-- ==== Sys2Proof/Machine/Primitives.lean ====
section
/-! DEFINITION. The pseudocode primitives (00_scope R7, R8) and the 64-byte block. Addition of words is `+`, and AND, OR,
XOR, NOT are `&&&`, `|||`, `^^^`, `~~~` on `Word`: all of them modulo 2^32 (R7). -/

namespace Sys2Proof.Machine

/-- `rotl32(x, n) = ((x << n) | (x >> (32 - n))) mod 2^32`, for n in 1..31; only 1, 5 and 30 occur (R7). -/
def rotl32 (x : Word) (n : Nat) : Word := (x <<< n) ||| (x >>> (32 - n))

/-- `be32(b0, b1, b2, b3)`: four bytes as a word, the first most significant (R8). -/
def be32 (b0 b1 b2 b3 : Byte) : Word := b0 ++ b1 ++ b2 ++ b3

/-- `bytes_be32(w)`: the four bytes of a word, most significant first (R8). -/
def bytesBe32 (w : Word) : List Byte :=
  [w.extractLsb' 24 8, w.extractLsb' 16 8, w.extractLsb' 8 8, w.extractLsb' 0 8]

/-- `bytes_be64(n)`: the eight bytes of a 64-bit value, most significant first (R8). -/
def bytesBe64 (n : Dword) : List Byte :=
  [n.extractLsb' 56 8, n.extractLsb' 48 8, n.extractLsb' 40 8, n.extractLsb' 32 8,
   n.extractLsb' 24 8, n.extractLsb' 16 8, n.extractLsb' 8 8, n.extractLsb' 0 8]

/-- A block: exactly 64 bytes (R12). -/
abbrev Block := Vector Byte 64

/-- The block whose byte i is `f i`. -/
def tabulate (f : Nat → Byte) : Block := ⟨⟨(List.range 64).map f⟩, by simp⟩

/-- The block whose byte i is `f i b[i]`. -/
def mapBytes (f : Nat → Byte → Byte) (b : Block) : Block := ⟨⟨b.toList.zipIdx.map fun x => f x.2 x.1⟩, by simp⟩

end Sys2Proof.Machine
end

