-- ==== Sys2Proof/Machine/Schedule.lean ====
section
/-! DEFINITION. The Message Schedule Expander (41_schedule R63 to R65). W is transient (10_state R19): it is a value here,
and it grows from 16 to 80 words, so that no word is read before it is written. -/

namespace Sys2Proof.Machine

/-- Four bytes at a time as big-endian words (R63). -/
def wordsOf : List Byte → List Word
  | b0 :: b1 :: b2 :: b3 :: rest => be32 b0 b1 b2 b3 :: wordsOf rest
  | _                            => []

/-- 4n bytes make n words. -/
theorem wordsOf_length : ∀ (n : Nat) (bs : List Byte), bs.length = 4 * n → (wordsOf bs).length = n
  | 0,     [],                          _ => rfl
  | n + 1, _ :: _ :: _ :: _ :: rest,    h => by
    have := wordsOf_length n rest (by simp only [List.length_cons] at h; omega)
    simp [wordsOf, this]
  | 0,     _ :: _,                      h => by simp at h
  | n + 1, [],                          h => by simp at h
  | n + 1, [_],                         h => by simp at h; omega
  | n + 1, [_, _],                      h => by simp at h; omega
  | n + 1, [_, _, _],                   h => by simp at h; omega

/-- LoadWords (R63): `W[i] <- be32(BUF[4i], BUF[4i+1], BUF[4i+2], BUF[4i+3])`. -/
def loadWords (b : Block) : Vector Word 16 := ⟨⟨wordsOf b.toList⟩, wordsOf_length 16 b.toList (by simp)⟩

/-- Expand (R64), after n of its steps: step t = 16 + n appends
`W[t] = rotl32(W[t-3] XOR W[t-8] XOR W[t-14] XOR W[t-16], 1)`. -/
def expand (w : Vector Word 16) : (n : Nat) → Vector Word (16 + n)
  | 0     => w
  | n + 1 =>
    let v := expand w n
    v.push (rotl32 (v[13 + n] ^^^ v[8 + n] ^^^ v[2 + n] ^^^ v[n]) 1)

/-- `Schedule(blk)` (R65): the 80 words that LoadWords and then Expand leave in W. -/
def schedule (b : Block) : Vector Word 80 := expand (loadWords b) 64

end Sys2Proof.Machine
end

