-- ==== Sys2Proof/Config.lean ====
section
/-! DEFINITION. The free values and the one open parameter that is a constant (00_scope R5). READY_DELAY, which may
differ for every transaction, is an input of `Machine/Port.lean` instead (log 7). -/

namespace Sys2Proof.Config

/-- What the n-th reset leaves in H[i]: "unspecified" (10_state R33, 93 U2). A free value: it has no body (log 3). -/
opaque freeWord : Nat → Nat → Word

/-- What the n-th reset leaves in BUF[i]: "unspecified" (10_state R33, 93 U2). A free value: it has no body (log 3). -/
opaque freeByte : Nat → Nat → Byte

/-- BASE: where the platform places the register space in the host's address map (20_memory R34, 93 U6; log 10). -/
opaque base : Nat

/-- The host address of a register: the core sees the offset only (R34). -/
def hostAddress (offset : Addr) : Nat := base + offset.toNat

end Sys2Proof.Config
end

