-- ==== Sys2Proof/Machine/State.lean ====
section
/-! DEFINITION. The state of SHA1 CORE between transactions (10_state R13), its value after reset (R33), and the reasons
a step can stop. -/

namespace Sys2Proof.Machine

/-- PHASE (R23): three values, so that the encoding 3 cannot be written (93 U9). -/
inductive Phase where
  | idle
  | absorb
  | done
  deriving DecidableEq, Repr

/-- The chaining state H[0..4], the source's h0..h4 (R14). -/
abbrev Chain := Vector Word 5

/-- The whole state between transactions (R13), the port's read data (R35), what the host presents (R36), and two
fields of the model's own (`faultMark`, `draws`). W, A..E and t are no state between transactions (R13; log 4). -/
structure State where
  /-- H[0..4] (R14). -/
  chain     : Chain
  /-- BUF[0..63] (R20). -/
  buf       : Block
  /-- BUFLEN, 0..63 (R21). -/
  buflen    : Fin 64
  /-- LEN, the message bytes accepted since the last INIT, modulo 2^64 (R22). -/
  len       : Dword
  /-- PHASE (R23). -/
  phase     : Phase
  /-- ERR, the sticky protocol-error flag (R18). -/
  err       : Bool
  /-- ERRCODE, the code of the first protocol error recorded (R18). -/
  errcode   : BitVec 3
  /-- The `rdata` output at the last completed transaction, `none` where it is not valid (R35; log 2). -/
  rdata     : Option Word
  /-- What the host presents, in order (R36, R43; log 1). -/
  host      : List HostEvent
  /-- The model's own fault mark: every `raise` sets it, no operation clears it (60_exceptions R96; log 5). -/
  faultMark : Bool
  /-- The model's own count of the resets that have drawn free values (log 3). -/
  draws     : Nat
  deriving DecidableEq, Repr

/-- Why the machine stops with a fault: never. "No data-path exception exists" (R91), every transaction after reset is
"performed, or rejected with an error code; never undefined" (R103), and a protocol error is recorded, not a stop (R93).
It has no constructor (log 12). -/
inductive Fault
  deriving DecidableEq, Repr

/-- Why a step has no meaning. -/
inductive Refusal where
  /-- An operation with no meaning yet, by its mnemonic; raised by `exec` only; safe. No arm of `exec` uses it. -/
  | notModelled (mnemonic : String)
  /-- A transaction presented before the first reset after power-up (93 U3); raised by `Port.edge` only; safe. -/
  | beforeFirstReset
  /-- The host changed req, we, addr or wdata before `ready` (93 U4); raised by `Port.edge` only; safe. -/
  | unstableTransaction
  deriving DecidableEq, Repr

namespace State

def setChain (s : State) (h : Chain) : State := { s with chain := h }
def setBuf (s : State) (b : Block) : State := { s with buf := b }
def setBuflen (s : State) (n : Fin 64) : State := { s with buflen := n }
def setLen (s : State) (n : Dword) : State := { s with len := n }
def setPhase (s : State) (p : Phase) : State := { s with phase := p }
/-- ERR and ERRCODE are always written together (R93, R81, R33). -/
def setErr (s : State) (e : Bool) (c : BitVec 3) : State := { s with err := e, errcode := c }
def setRdata (s : State) (r : Option Word) : State := { s with rdata := r }
def setHost (s : State) (q : List HostEvent) : State := { s with host := q }
def setFaultMark (s : State) (m : Bool) : State := { s with faultMark := m }

/-- The state after the n-th reset (R33): H and BUF are unspecified, so they hold the free values of draw n (log 3). -/
def atReset (n : Nat) : State where
  chain     := #v[Config.freeWord n 0, Config.freeWord n 1, Config.freeWord n 2, Config.freeWord n 3, Config.freeWord n 4]
  buf       := tabulate (Config.freeByte n)
  buflen    := 0
  len       := 0
  phase     := .idle
  err       := false
  errcode   := 0
  rdata     := none
  host      := []
  faultMark := false
  draws     := n

/-- The machine right after its first reset, with nothing presented yet (R33, R100). -/
def reset : State := atReset 0

end State
end Sys2Proof.Machine
end

