-- ==== Sys2Proof/Machine/Compression.lean ====
section
/-! DEFINITION. The Compression Round Engine (42_compression R68 to R74). A..E are transient (10_state R15): the structure
`Working` is a value inside ProcessBlock. -/

namespace Sys2Proof.Machine

/-- The working registers A..E (10_state R15). -/
structure Working where
  a : Word
  b : Word
  c : Word
  d : Word
  e : Word
  deriving DecidableEq, Repr

/-- WorkInit (R68). -/
def workInit (h : Chain) : Working := ⟨h[0], h[1], h[2], h[3], h[4]⟩

/-- The round function f(t, b, c, d) (R69), t in 0..79. -/
def roundFn (t : Nat) (b c d : Word) : Word :=
  if t < 20 then (b &&& c) ||| (~~~b &&& d)
  else if t < 40 then b ^^^ c ^^^ d
  else if t < 60 then (b &&& c) ||| (b &&& d) ||| (c &&& d)
  else b ^^^ c ^^^ d

/-- The round constant k(t) (R70), t in 0..79. -/
def roundConst (t : Nat) : Word :=
  if t < 20 then 0x5A827999#32
  else if t < 40 then 0x6ED9EBA1#32
  else if t < 60 then 0x8F1BBCDC#32
  else 0xCA62C1D6#32

/-- Round(t) with schedule word w = W[t] (R71): all five writes use the values from the start of the round. -/
def roundStep (t : Nat) (w : Word) (r : Working) : Working where
  a := rotl32 r.a 5 + roundFn t r.b r.c r.d + r.e + roundConst t + w
  b := r.a
  c := rotl32 r.b 30
  d := r.c
  e := r.d

/-- Rounds t, t+1, ... on the schedule words W[t], W[t+1], ..., in increasing t, each on the registers the one before left
(R73). -/
def runRounds : Nat → List Word → Working → Working
  | _, [],      r => r
  | t, w :: ws, r => runRounds (t + 1) ws (roundStep t w r)

/-- Fold (R72). -/
def foldInto (h : Chain) (r : Working) : Chain :=
  #v[h[0] + r.a, h[1] + r.b, h[2] + r.c, h[3] + r.d, h[4] + r.e]

/-- `Compress(h, w)` (R73). -/
def compress (h : Chain) (w : Vector Word 80) : Chain :=
  foldInto h (runRounds 0 w.toList (workInit h))

/-- ProcessBlock (R74): `H <- Compress(H, Schedule(BUF))`; nothing else is written. -/
def processBlock (s : State) : State := s.setChain (compress s.chain (schedule s.buf))

end Sys2Proof.Machine
end

