-- ==== Sys2Proof/Machine/Padding.lean ====
section
/-! DEFINITION. The Padding Preprocessor: the function Pad (40_padding R56 to R58) and the procedure PadFinal (R60). -/

namespace Sys2Proof.Machine

/-- k, the number of zero bytes: `(55 - L) mod 64` (R57). -/
def zeroCount (l : Nat) : Nat := (55 + (64 - l % 64)) % 64

/-- The length field: `bytes_be64((L * 8) mod 2^64)` (R58). -/
def lengthField (l : Nat) : List Byte := bytesBe64 (BitVec.ofNat 64 (l * 8))

/-- `Pad(M)` (R56). -/
def pad (m : List Byte) : List Byte :=
  m ++ [0x80#8] ++ List.replicate (zeroCount m.length) 0#8 ++ lengthField m.length

/-- `for i = lo .. hi-1: BUF[i] <- 0x00`. -/
def zeroFill (lo hi : Nat) (b : Block) : Block :=
  mapBytes (fun i x => if lo ≤ i ∧ i < hi then 0#8 else x) b

/-- `BUF[56..63] <- bytes_be64(bitlen)`. -/
def putLength (bitlen : Dword) (b : Block) : Block :=
  mapBytes (fun i x => if 56 ≤ i then (bytesBe64 bitlen).getD (i - 56) 0#8 else x) b

/-- BUF at the ProcessBlock of the branch `r <= 55` of PadFinal (R60). -/
def oneBlock (s : State) : Block :=
  putLength (s.len * 8) (zeroFill (s.buflen + 1) 56 (s.buf.set s.buflen 0x80#8))

/-- BUF at the first ProcessBlock of the branch `r = 56..63` (R60). -/
def firstBlock (s : State) : Block := zeroFill (s.buflen + 1) 64 (s.buf.set s.buflen 0x80#8)

/-- BUF at the second ProcessBlock of that branch (R60): the first block, overwritten. -/
def secondBlock (s : State) : Block := putLength (s.len * 8) (zeroFill 0 56 (firstBlock s))

/-- The blocks PadFinal processes, in order: one when r = BUFLEN is at most 55, else two (R60). -/
def finalBlocks (s : State) : List Block :=
  if s.buflen.val ≤ 55 then [oneBlock s] else [firstBlock s, secondBlock s]

/-- PadFinal (R60): each of its blocks is written to BUF and processed. -/
def padFinal (s : State) : State := (finalBlocks s).foldl (fun u b => processBlock (u.setBuf b)) s

end Sys2Proof.Machine
end

