-- ==== Sys2Proof/Machine/Digest.lean ====
section
/-! DEFINITION. What the Digest Accumulator puts out: the 20-byte digest and its 40 hex characters (43_accumulator R84,
R85), and the function the hardware computes (R75, R86). -/

namespace Sys2Proof.Machine

/-- IV[0..4], the initial chaining state (R75). -/
def iv : Chain := #v[0x67452301#32, 0xEFCDAB89#32, 0x98BADCFE#32, 0x10325476#32, 0xC3D2E1F0#32]

/-- The 20-byte digest (R84). -/
def digestBytes (h : Chain) : List Byte :=
  bytesBe32 h[0] ++ bytesBe32 h[1] ++ bytesBe32 h[2] ++ bytesBe32 h[3] ++ bytesBe32 h[4]

/-- `nib(i)`: the high nibble of a digest byte for an even i, the low one for an odd i (R85). -/
def nib (h : Chain) (i : Nat) : BitVec 4 :=
  let byte := (digestBytes h).getD (i / 2) 0#8
  if i % 2 = 0 then byte.extractLsb' 4 4 else byte.extractLsb' 0 4

/-- `hexchar(n)`: the character code of a nibble, '0'..'9' or 'a'..'f' (R85). -/
def hexChar (n : BitVec 4) : Byte :=
  if n < 10#4 then 0x30#8 + n.setWidth 8 else 0x61#8 + (n.setWidth 8 - 10#8)

/-- `hex[i]`, i in 0..39 (R85). -/
def hexAt (h : Chain) (i : Nat) : Byte := hexChar (nib h i)

/-- The word of register HEXj: `be32(hex[4j], hex[4j+1], hex[4j+2], hex[4j+3])` (10_state R32). -/
def hexWord (h : Chain) (j : Fin 10) : Word :=
  be32 (hexAt h (4 * j)) (hexAt h (4 * j + 1)) (hexAt h (4 * j + 2)) (hexAt h (4 * j + 3))

/-- The block that starts with these bytes; 64 of them fill it (fewer are followed by zeros, which no rule uses: R86 takes
whole blocks of `Pad(M)`). -/
def blockOf (bs : List Byte) : Block :=
  ⟨⟨bs.take 64 ++ List.replicate (64 - (bs.take 64).length) 0#8⟩, by simp⟩

/-- Block i of a byte sequence, `P[64i .. 64i+63]` (R86). -/
def blockAt (p : List Byte) (i : Nat) : Block := blockOf (p.drop (64 * i))

/-- The chaining state after the first n blocks of p, from the initial constants (R86). -/
def chainAfter (p : List Byte) : Nat → Chain
  | 0     => iv
  | n + 1 => compress (chainAfter p n) (schedule (blockAt p n))

/-- `SHA1(M)` (R86): the chaining state after all N blocks of `Pad(M)`. -/
def sha1 (m : List Byte) : Chain := chainAfter (pad m) ((pad m).length / 64)

end Sys2Proof.Machine
end

