-- ==== Sys2Proof/Machine/Flags.lean ====
section
/-! DEFINITION. The flags and status words. The data path keeps no condition codes (10_state R17); the only flag is ERR,
with ERRCODE (R18), read through STATUS and ERRCODE. -/

namespace Sys2Proof.Machine

/-- The two bits of PHASE (R23). -/
def Phase.bits : Phase → BitVec 2
  | .idle   => 0
  | .absorb => 1
  | .done   => 2

/-- The value of STATUS (R27): PHASE in bits 1:0, ERR in bit 2, BUFLEN in bits 13:8, the rest 0. -/
def statusWord (s : State) : Word :=
  0#18 ++ BitVec.ofNat 6 s.buflen.val ++ 0#5 ++ BitVec.ofBool s.err ++ s.phase.bits

/-- The value of ERRCODE (R28): the code in bits 2:0, the rest 0. -/
def errcodeWord (s : State) : Word := 0#29 ++ s.errcode

/-- Is PHASE = ABSORB, the phase PUSHB, PUSHW and FINAL need (R23). -/
def absorbing (s : State) : Bool := s.phase == .absorb

/-- Is PHASE = DONE, the phase the digest and hex reads need (R23). -/
def digestReady (s : State) : Bool := s.phase == .done

end Sys2Proof.Machine
end

