-- ==== Sys2Proof/Machine/Operands.lean ====
section
/-! DEFINITION. The operand forms (30_encoding R50). imm8 is used as is; imm32 is split into four bytes; addr names a
register of the map (10_state R25). -/

namespace Sys2Proof.Machine

/-- The message bytes of an imm32 operand, in the order they are pushed (R50 (b), R82). -/
def imm32Bytes (imm32 : Word) : List Byte := bytesBe32 imm32

/-- The registers of the map (10_state R25). -/
inductive Reg where
  | cmd
  | status
  | errcode
  | din
  | lenLo
  | lenHi
  | digest (j : Fin 5)
  | hex (j : Fin 10)
  deriving DecidableEq, Repr

/-- The address of a register (10_state R25). -/
def Reg.address : Reg → Addr
  | .cmd      => 0x00
  | .status   => 0x04
  | .errcode  => 0x08
  | .din      => 0x0C
  | .lenLo    => 0x10
  | .lenHi    => 0x14
  | .digest j => BitVec.ofNat 8 (0x20 + 4 * j)
  | .hex j    => BitVec.ofNat 8 (0x40 + 4 * j)

/-- Every register of the map, in address order. -/
def allRegs : List Reg :=
  [.cmd, .status, .errcode, .din, .lenLo, .lenHi,
   .digest 0, .digest 1, .digest 2, .digest 3, .digest 4,
   .hex 0, .hex 1, .hex 2, .hex 3, .hex 4, .hex 5, .hex 6, .hex 7, .hex 8, .hex 9]

/-- The register at an address; none where the address is unmapped (10_state R25). -/
def regAt (a : Addr) : Option Reg := allRegs.find? fun r => r.address == a

end Sys2Proof.Machine
end

