-- ==== Sys2Proof/Machine/Ops.lean ====
section
/-! DEFINITION. The operations the meanings share: raising a protocol error and the return from it (60_exceptions R93, R95),
the register read (20_memory R37), PushByte (43_accumulator R76), and reset (70_reset R100). -/

namespace Sys2Proof.Machine

/-- `raise E_x` (R93): ERR and ERRCODE are written only if ERR = 0; nothing else of the hardware changes. The model's own
fault mark is set (R96). This is the machine's one exception; control goes nowhere. -/
def raiseError (e : ProtocolError) (s : State) : State :=
  let marked := s.setFaultMark true
  if s.err then marked else marked.setErr true e.code

/-- The return from a protocol error (R95): ERR and ERRCODE become 0, nothing else. The fault mark stays (R96). -/
def clearError (s : State) : State := s.setErr false 0

/-- `BusRead(addr)` (R37): the value read, or the error it raises. -/
def busRead (a : Addr) (s : State) : Except ProtocolError Word :=
  if aligned a = false then .error .eAlign
  else match regAt a with
    | some .status     => .ok (statusWord s)
    | some .errcode    => .ok (errcodeWord s)
    | some .lenLo      => .ok (s.len.extractLsb' 0 32)
    | some .lenHi      => .ok (s.len.extractLsb' 32 32)
    | some (.digest j) => if digestReady s then .ok s.chain[j] else .error .ePhase
    | some (.hex j)    => if digestReady s then .ok (hexWord s.chain j) else .error .ePhase
    | some .cmd        => .error .eAddr
    | some .din        => .error .eAddr
    | none             => .error .eAddr

/-- `PushByte(b)` (R76): the byte that fills BUF runs ProcessBlock in the same transaction. -/
def pushByte (b : Byte) (s : State) : State :=
  let stored := (s.setBuf (s.buf.set s.buflen b)).setLen (s.len + 1)
  if s.buflen.val = 63 then (processBlock stored).setBuflen 0
  else stored.setBuflen (s.buflen + 1)

/-- PushByte of each byte of a list, in order (R82). -/
def pushBytes : List Byte → State → State
  | [],      s => s
  | b :: bs, s => pushBytes bs (pushByte b s)

/-- `Reset()` (R100, R33). H and BUF take the next draw of free values (log 3); what the host presents stays, and so does
the model's fault mark, which nothing clears (log 5). -/
def resetCore (s : State) : State :=
  ((State.atReset (s.draws + 1)).setHost s.host).setFaultMark s.faultMark

end Sys2Proof.Machine
end

