-- ==== Sys2Proof/Machine/Command.lean ====
section
/-! DEFINITION. The meanings of the commands, format C: NOP, INIT, PUSHB, FINAL, CLRERR (43_accumulator R77 to R81). -/

namespace Sys2Proof.Machine

/-- NOP (R77): nothing, in any phase. -/
def execNop (s : State) : Host.Outcome State Fault Refusal := .next s

/-- INIT (R78): allowed in every phase; BUF, ERR and ERRCODE are not written. -/
def execInit (s : State) : Host.Outcome State Fault Refusal :=
  .next ((((s.setChain iv).setBuflen 0).setLen 0).setPhase .absorb)

/-- PUSHB imm8 (R79): E_PHASE unless ABSORB, else PushByte. -/
def execPushb (imm8 : Byte) (s : State) : Host.Outcome State Fault Refusal :=
  .next (if absorbing s then pushByte imm8 s else raiseError .ePhase s)

/-- FINAL (R80): E_PHASE unless ABSORB, else PadFinal, BUFLEN <- 0, PHASE <- DONE. LEN stays. -/
def execFinal (s : State) : Host.Outcome State Fault Refusal :=
  .next (if absorbing s then ((padFinal s).setBuflen 0).setPhase .done else raiseError .ePhase s)

/-- CLRERR (R81): allowed in every phase. -/
def execClrerr (s : State) : Host.Outcome State Fault Refusal := .next (clearError s)

end Sys2Proof.Machine
end

