-- ==== Sys2Proof/Machine/Data.lean ====
section
/-! DEFINITION. The meaning of the data write, format D: PUSHW (43_accumulator R82). -/

namespace Sys2Proof.Machine

/-- PUSHW imm32 (R82): E_PHASE unless ABSORB, checked once before the first byte; else four PushByte, most significant
byte first. -/
def execPushw (imm32 : Word) (s : State) : Host.Outcome State Fault Refusal :=
  .next (if absorbing s then pushBytes (imm32Bytes imm32) s else raiseError .ePhase s)

end Sys2Proof.Machine
end

