-- ==== Sys2Proof/Machine/Read.lean ====
section
/-! DEFINITION. The meaning of the read, format R: RD (43_accumulator R83). -/

namespace Sys2Proof.Machine

/-- RD addr (R83): `rdata <- BusRead(addr)`. The value is that of the state before the read; a read that raises returns
0x00000000 (20_memory R37). -/
def execRd (addr : Addr) (s : State) : Host.Outcome State Fault Refusal :=
  .next (match busRead addr s with
    | .ok v    => s.setRdata (some v)
    | .error e => (raiseError e s).setRdata (some 0#32))

end Sys2Proof.Machine
end

