-- ==== Sys2Proof/Machine/Dispatch.lean ====
section
/-! DEFINITION. The one dispatch from an operation to its meaning (30_encoding R52). -/

namespace Sys2Proof.Machine

def exec (i : Instr) (s : State) : Host.Outcome State Fault Refusal :=
  match i with
  | .nop => Sys2Proof.Machine.execNop s
  | .init => Sys2Proof.Machine.execInit s
  | .pushb imm8 => Sys2Proof.Machine.execPushb imm8 s
  | .final => Sys2Proof.Machine.execFinal s
  | .clrerr => Sys2Proof.Machine.execClrerr s
  | .pushw imm32 => Sys2Proof.Machine.execPushw imm32 s
  | .rd addr => Sys2Proof.Machine.execRd addr s

end Sys2Proof.Machine
end

