-- ==== Sys2Proof/Machine/Transact.lean ====
section
/-! DEFINITION. One completed transaction (20_memory R36): decode, then the operation, or the error of an illegal encoding
(30_encoding R53). -/

namespace Sys2Proof.Machine

/-- A completed transaction. `rdata` is valid only after a read (R35), so it starts as not valid. A transaction that is
none of the seven operations records its error and has no other effect (R53, R93). -/
def transact (t : Transaction) (s : State) : Host.Outcome State Fault Refusal :=
  let s := s.setRdata none
  match decode t with
  | .ok i    => exec i s
  | .error e => .next (raiseError e s)

/-- What one thing the host does makes of the state (R36). -/
def perform : HostEvent → State → Host.Outcome State Fault Refusal
  | .reset,         s => .next (resetCore s)
  | .transaction t, s => transact t s

/-- Put a transaction where the next step takes it: at the head of what the host presents. -/
def present (t : Transaction) (s : State) : State := s.setHost (.transaction t :: s.host)

end Sys2Proof.Machine
end

