-- ==== Sys2Proof/Machine/Step.lean ====
section
/-! DEFINITION. The step: the next thing the host does, completed (20_memory R36, 70_reset R104). -/

namespace Sys2Proof.Machine

/-- One step. Where the host presents nothing, "no architectural state changes" (R36). -/
def step (s : State) : Host.Outcome State Fault Refusal :=
  match s.host with
  | []        => .next s
  | e :: rest => perform e (s.setHost rest)

/-- `s` with the transaction of a table word presented as the next one; a word that is no transaction word (a bit above
bit 40 set) presents nothing (log 1, 11). -/
def State.withFetchWord (s : State) (nbits w : Nat) : State :=
  match tableWord nbits w with
  | some t => present (transactionOf t) s
  | none   => s

end Sys2Proof.Machine
end

