-- ==== Sys2Proof/Machine/Port.lean ====
section
/-! DEFINITION. The port at the level of clock edges (20_memory R35, R36; 70_reset R100, R103, R104), above the
transaction level: reset's precedence, the wait for `ready`, and the two things the host must not do (93 U3, U4). -/

namespace Sys2Proof.Machine

/-- The signals at one rising edge of `clk` (R35). `ready` is the core's output; how long it stays 0 is the open
parameter READY_DELAY, so it is given per edge and nothing constrains it (93 U5; log 7). -/
structure Edge where
  rst   : Bool
  req   : Bool
  we    : Bool
  addr  : Addr
  wdata : Word
  ready : Bool
  deriving DecidableEq, Repr

/-- The core with what the port remembers between edges. -/
structure Port where
  /-- The architectural state. -/
  core     : State
  /-- Has a reset happened since power-up (93 U3). -/
  wasReset : Bool
  /-- The transaction presented and not yet completed (R36). -/
  held     : Option Transaction
  deriving DecidableEq, Repr

/-- The transaction an edge carries. -/
def Edge.transaction (e : Edge) : Transaction := ⟨e.we, e.addr, e.wdata⟩

/-- The host keeps its duty at this edge (R36): where a transaction waits, the same one is still presented. -/
def Edge.stable (e : Edge) (held : Option Transaction) : Bool :=
  match held with
  | none   => true
  | some t => e.req && e.transaction == t

/-- One rising edge (R36). Reset takes precedence over a transaction presented at the same edge, which is not performed
(R100). A transaction presented before the first reset, or changed before `ready`, is refused (93 U3, U4). -/
def Port.edge (e : Edge) (p : Port) : Host.Outcome Port Fault Refusal :=
  if e.rst then .next ⟨resetCore p.core, true, none⟩
  else if e.stable p.held = false then .refused .unstableTransaction
  else if e.req = false then .next p
  else if p.wasReset = false then .refused .beforeFirstReset
  else if e.ready = false then .next { p with held := some e.transaction }
  else match transact e.transaction p.core with
    | .next s    => .next ⟨s, true, none⟩
    | .fault r   => .fault r
    | .refused r => .refused r

/-- A run of edges, stopping at the first refusal. -/
def Port.run : List Edge → Port → Host.Outcome Port Fault Refusal
  | [],      p => .next p
  | e :: es, p =>
    match p.edge e with
    | .next q    => Port.run es q
    | .fault r   => .fault r
    | .refused r => .refused r

end Sys2Proof.Machine
end

