-- ==== Sys2Proof/Machine/Pseudo.lean ====
section
/-! DEFINITION. The textual notation's read by register name (30_encoding R54) and the pseudo-operations, each a fixed
expansion (R55). They are sequences of operations, no operations of their own. -/

namespace Sys2Proof.Machine

/-- `RD r` for a register name r (R54). -/
def rdOf (r : Reg) : Instr := .rd r.address

/-- `PUSHBYTES b0 b1 ... bn` (R55). -/
def pushBytesOps (bs : List Byte) : List Instr := bs.map .pushb

/-- `PUSHS "text"`: one byte per character, its ASCII code (R55; the code is the spec's "general knowledge", log 16). For a
character with no ASCII code the spec gives nothing; the low eight bits of its code point are the model's choice (DESIGN
CHOICE, log 17). -/
def pushsOps (text : String) : List Instr := pushBytesOps (text.toList.map fun c => BitVec.ofNat 8 c.toNat)

/-- `RDDIGEST` (R55). -/
def rdDigestOps : List Instr := [0, 1, 2, 3, 4].map fun j => rdOf (.digest j)

/-- `RDHEX` (R55). -/
def rdHexOps : List Instr := [0, 1, 2, 3, 4, 5, 6, 7, 8, 9].map fun j => rdOf (.hex j)

/-- `HASH b0 ... bn` (R55): the one-shot mode. -/
def hashOps (bs : List Byte) : List Instr := [.init] ++ pushBytesOps bs ++ [.final] ++ rdDigestOps

end Sys2Proof.Machine
end

