-- ==== Sys2Proof/Safety.lean ====
section
/-! DEFINITION. What counts as a safe run, and the terms the statements use: the fault mark (60_exceptions R96), the
invariants of 10_state R24, the bytes a program pushes and the runs of 43_accumulator R87. -/

namespace Sys2Proof.Machine

/-- No protocol error has been raised in this run (R96): the premise of claims about digests. -/
def State.noFault (s : State) : Prop := s.faultMark = false

/-- The invariant between transactions that needs no history (R24 items 1, 5, 6 and the counts of items 2 and 3): BUFLEN is
below 64 and PHASE is not 3 by their types. The last clause is the model's own (log 5). -/
def State.Inv (s : State) : Prop :=
  (s.err = false → s.errcode = 0) ∧
  (s.err = true → 1 ≤ s.errcode.toNat ∧ s.errcode.toNat ≤ 5) ∧
  (s.phase = .absorb → s.buflen.val = s.len.toNat % 64) ∧
  (s.phase = .done → s.buflen.val = 0) ∧
  (s.phase = .idle → s.buflen.val = 0 ∧ s.len = 0) ∧
  (s.err = true → s.faultMark = true)

/-- R24 item 2: `m` has been pushed since the last INIT. H is the chaining state after the full blocks of m, BUF holds the
rest of m in order, and LEN is its length modulo 2^64. -/
def State.Absorbed (m : List Byte) (s : State) : Prop :=
  s.phase = .absorb ∧
  s.len = BitVec.ofNat 64 m.length ∧
  s.buflen.val = m.length % 64 ∧
  s.chain = chainAfter m (m.length / 64) ∧
  ∀ i : Fin 64, i < s.buflen → m[64 * (m.length / 64) + i.val]? = some s.buf[i]

/-- The message bytes an operation appends, in order (R79, R82). -/
def pushedBytes : Instr → List Byte
  | .nop     => []
  | .init    => []
  | .pushb b => [b]
  | .final   => []
  | .clrerr  => []
  | .pushw w => imm32Bytes w
  | .rd _    => []

/-- The message a sequence of operations pushes. -/
def messageOf (is : List Instr) : List Byte := is.flatMap pushedBytes

/-- The operations R87 allows between INIT and FINAL: PUSHB and PUSHW, NOP, CLRERR, and RD of STATUS, ERRCODE, LEN_LO and
LEN_HI. -/
def feeds : Instr → Bool
  | .nop     => true
  | .init    => false
  | .pushb _ => true
  | .final   => false
  | .clrerr  => true
  | .pushw _ => true
  | .rd a    => a == 0x04#8 || a == 0x08#8 || a == 0x10#8 || a == 0x14#8

/-- The transactions of a sequence of operations, as the host presents them. -/
def programOf (is : List Instr) : List HostEvent := is.map fun i => .transaction (encode i)

/-- The message the host means after one more event, given the one it meant before it (R96): INIT starts an empty one, each
PUSHB and PUSHW the host presents appends its bytes whether or not the core takes them, and a reset leaves none. -/
def meantAfter (m : Option (List Byte)) : HostEvent → Option (List Byte)
  | .reset         => none
  | .transaction t =>
    match decode t with
    | .ok .init => some []
    | .ok i     => m.map (· ++ pushedBytes i)
    | .error _  => m

/-- The message the host means after a sequence of events: none before the first INIT. -/
def meantBy (es : List HostEvent) : Option (List Byte) := es.foldl meantAfter none

/-- k steps, stopping at the first fault or refusal. -/
def steps : Nat → State → Host.Outcome State Fault Refusal
  | 0,     s => .next s
  | k + 1, s =>
    match step s with
    | .next t    => steps k t
    | .fault r   => .fault r
    | .refused r => .refused r

/-- Two states that agree on all that a later rule may read before writing it (R24 item 4): everything but BUF at and above
BUFLEN, H while PHASE is IDLE, and the model's count of draws. -/
def SameLive (s t : State) : Prop :=
  s.buflen = t.buflen ∧ s.len = t.len ∧ s.phase = t.phase ∧ s.err = t.err ∧ s.errcode = t.errcode ∧
  s.rdata = t.rdata ∧ s.host = t.host ∧ s.faultMark = t.faultMark ∧
  (s.phase ≠ .idle → s.chain = t.chain) ∧
  ∀ i : Fin 64, i < s.buflen → s.buf[i] = t.buf[i]

/-- The addresses of the readable registers (10_state R25). -/
def readableAddrs : List Nat :=
  [0x04, 0x08, 0x10, 0x14, 0x20, 0x24, 0x28, 0x2C, 0x30, 0x40, 0x44, 0x48, 0x4C, 0x50, 0x54, 0x58, 0x5C, 0x60, 0x64]

/-- The error code a transaction has a cause for, by the causes of R92 in the order of R94; none where it has none. Written
on the numbers of the signals, not with the decoder. -/
def causeOf (t : Transaction) (p : Phase) : Option Nat :=
  let a := t.addr.toNat
  let v := t.wdata.toNat
  if a % 4 ≠ 0 then some 5
  else if t.we = true ∧ a ≠ 0x00 ∧ a ≠ 0x0C ∨ t.we = false ∧ a ∉ readableAddrs then some 4
  else if t.we = true ∧ a = 0x00 ∧ 4 < v % 256 then some 1
  else if t.we = true ∧ a = 0x00 ∧ (65536 ≤ v ∨ v % 256 ≠ 2 ∧ v / 256 % 256 ≠ 0) then some 2
  else if t.we = true ∧ (a = 0x0C ∨ a = 0x00 ∧ (v % 256 = 2 ∨ v % 256 = 3)) ∧ p ≠ .absorb then some 3
  else if t.we = false ∧ 0x20 ≤ a ∧ p ≠ .done then some 3
  else none

/-- `s` after a protocol error with code c (R93): the first code is kept, the model's fault mark is set (R96), and nothing
else changes. -/
def recorded (c : BitVec 3) (s : State) : State :=
  { s with err := true, errcode := if s.err then s.errcode else c, faultMark := true }

/-- Two states that agree on all but ERR, ERRCODE, the read data and the fault mark. -/
def SameButErr (s t : State) : Prop :=
  s.chain = t.chain ∧ s.buf = t.buf ∧ s.buflen = t.buflen ∧ s.len = t.len ∧ s.phase = t.phase ∧ s.host = t.host ∧
  s.draws = t.draws

/-- The number the bytes of a list are, most significant first. -/
def bigEndian (bs : List Byte) : Nat := bs.foldl (fun v b => v * 256 + b.toNat) 0

/-- The edges of one transaction of a plan (idle, wait, t): idle edges with nothing presented, then t presented while
`ready` stays 0, then t completed. -/
def edgesOf (x : Nat × Nat × Transaction) : List Edge :=
  List.replicate x.1 ⟨false, false, false, 0, 0, false⟩ ++
  List.replicate x.2.1 ⟨false, true, x.2.2.we, x.2.2.addr, x.2.2.wdata, false⟩ ++
  [⟨false, true, x.2.2.we, x.2.2.addr, x.2.2.wdata, true⟩]

end Sys2Proof.Machine
end

