-- ==== Sys2Proof/Certificates/Slice0/Obligations.lean ====
section
/-! DEFINITION. The statements about SHA1 CORE. Each docstring names the rule of spec/ it formalises; "derived" says that
the clause rests on an inference the spec marks as its own, or on a choice of the model's that a log entry names. -/

open Sys2Proof Sys2Proof.Machine

/-! ## Encoding -/

/-- Derived (30_encoding R48 to R51): decoding the word of an operation gives that operation back, at every operand value,
and the word is canonical. -/
def Obligations.DecodeOfEncodeIsTheOperation : Prop :=
  ∀ i : Instr, i.wellFormed = true →
    decodeWord (encodeWord i) = .ok i ∧ (transactionOf (encodeWord i)).canonical = true

/-- Derived (30_encoding R48, R51): no bit of a decoded word is dropped but the wdata of a read, which is ignored. -/
def Obligations.EncodeOfDecodeIsTheCanonicalWord : Prop :=
  ∀ (w : TWord) (i : Instr), decodeWord w = .ok i →
    encodeWord i = if w.getLsbD 40 then w else w &&& 0x1FF00000000#41

/-- R51: the operation of a word is that of the one row of the map whose mask and match fit it, no two rows fit one word, a
word that fits no row is illegal, and the columns we, addr, wdata of each row. -/
def Obligations.OpcodeMapDecidesTheOperation : Prop :=
  (∀ w : TWord, (opcodeTable.filter fun r => r.matchesWord w).map (·.mnemonic) =
    match decodeWord w with
    | .ok i    => [mnemonicOf i]
    | .error _ => []) ∧
  encode .nop = ⟨true, 0x00, 0x00000000⟩ ∧ encode .init = ⟨true, 0x00, 0x00000001⟩ ∧
  encode .final = ⟨true, 0x00, 0x00000003⟩ ∧ encode .clrerr = ⟨true, 0x00, 0x00000004⟩ ∧
  (∀ b, (encode (.pushb b)).we = true ∧ (encode (.pushb b)).addr = 0x00 ∧
    (encode (.pushb b)).wdata.toNat = b.toNat * 256 + 2) ∧
  (∀ w, encode (.pushw w) = ⟨true, 0x0C, w⟩) ∧
  (∀ a v, decode ⟨false, a, v⟩ = .ok (.rd a))

/-- Derived (30_encoding R52; the read data becoming not valid is the model's, log 2): a write of v to CMD makes its checks in
this order and then runs the command; PUSHB and FINAL check the phase. -/
def Obligations.CommandWriteChecksInOrder : Prop :=
  ∀ (v : Word) (s : State),
    let op := v.toNat % 256
    let imm := v.toNat / 256 % 256
    let rsv := v.toNat / 65536
    let r := transact ⟨true, 0x00, v⟩ s
    let s' := s.setRdata none
    (4 < op → r = .next (recorded 1 s')) ∧
    (op ≤ 4 → rsv ≠ 0 → r = .next (recorded 2 s')) ∧
    (op ≤ 4 → rsv = 0 → op ≠ 2 → imm ≠ 0 → r = .next (recorded 2 s')) ∧
    (rsv = 0 → imm = 0 → op = 0 → r = exec .nop s') ∧
    (rsv = 0 → imm = 0 → op = 1 → r = exec .init s') ∧
    (rsv = 0 → op = 2 → r = exec (.pushb (BitVec.ofNat 8 imm)) s') ∧
    (rsv = 0 → imm = 0 → op = 3 → r = exec .final s') ∧
    (rsv = 0 → imm = 0 → op = 4 → r = exec .clrerr s') ∧
    (s.phase ≠ .absorb → rsv = 0 → op = 2 ∨ op = 3 ∧ imm = 0 → r = .next (recorded 3 s'))

/-- Derived (20_memory R38; the read data becoming not valid is the model's, log 2): a write makes its checks in this order;
one that raises changes nothing but ERR and ERRCODE, the model's fault mark (log 5) and the read data. -/
def Obligations.WriteChecksInOrder : Prop :=
  ∀ (a : Addr) (v : Word) (s : State),
    let r := transact ⟨true, a, v⟩ s
    let s' := s.setRdata none
    (a.toNat % 4 ≠ 0 → r = .next (recorded 5 s')) ∧
    (a.toNat = 0x00 → r = match decodeCommand v with
      | .ok i    => exec i s'
      | .error e => .next (raiseError e s')) ∧
    (a.toNat = 0x0C → r = exec (.pushw v) s') ∧
    (a.toNat % 4 = 0 → a.toNat ≠ 0x00 → a.toNat ≠ 0x0C → r = .next (recorded 4 s')) ∧
    (∀ u, r = .next u → s.faultMark = false → u.faultMark = true →
      u = { s with err := true, errcode := u.errcode, faultMark := true, rdata := none })

/-- Derived (30_encoding R53; the read data becoming not valid is the model's, log 2): the transactions the decoder takes are
exactly the well-formed ones, and every other one records an error and does nothing else but leave the read data not valid. -/
def Obligations.IllegalTransactionsOnlyRecordAnError : Prop :=
  ∀ t : Transaction,
    (t.wellFormed = true ↔ ∃ i, decode t = .ok i) ∧
    (t.wellFormed = false → ∃ e, e ≠ .ePhase ∧ decode t = .error e ∧
      ∀ s, transact t s = .next (raiseError e (s.setRdata none)))

/-- Derived (95_test_vectors section 4): a word of each format, written out bit by bit, is the operation it stands for. -/
def Obligations.SampleWordsDecode : Prop :=
  decodeWord 0x10000000000#41 = .ok .nop ∧ decodeWord 0x10000000001#41 = .ok .init ∧
  decodeWord 0x10000006102#41 = .ok (.pushb 0x61) ∧ decodeWord 0x10000000003#41 = .ok .final ∧
  decodeWord 0x10000000004#41 = .ok .clrerr ∧ decodeWord 0x10C54686520#41 = .ok (.pushw 0x54686520) ∧
  decodeWord 0x06400000000#41 = .ok (.rd 0x64) ∧ decodeWord 0x10000000007#41 = .error .eOpcode ∧
  decodeTableWord 48 0x02C00000000 = some (.rd 0x2C)

/-! ## Primitives -/

/-- Derived (00_scope R7): the rotation is the formula of R7, and bit i of the result is bit (i - n) mod 32 of x. -/
def Obligations.RotateMovesBitsAround : Prop :=
  ∀ (x : Word) (n : Nat), 1 ≤ n → n ≤ 31 →
    (rotl32 x n).toNat = (x.toNat * 2 ^ n ||| x.toNat / 2 ^ (32 - n)) % 2 ^ 32 ∧
    ∀ i, i < 32 → (rotl32 x n).getLsbD i = x.getLsbD ((i + 32 - n) % 32)

/-- Derived (00_scope R8, 20_memory R39): byte conversions are big-endian and lose nothing. -/
def Obligations.ByteOrderIsBigEndian : Prop :=
  (∀ b0 b1 b2 b3 : Byte,
    (be32 b0 b1 b2 b3).toNat = b0.toNat * 2 ^ 24 + b1.toNat * 2 ^ 16 + b2.toNat * 2 ^ 8 + b3.toNat ∧
    bytesBe32 (be32 b0 b1 b2 b3) = [b0, b1, b2, b3]) ∧
  (∀ w : Word, (bytesBe32 w).length = 4 ∧ bigEndian (bytesBe32 w) = w.toNat) ∧
  (∀ n : Dword, (bytesBe64 n).length = 8 ∧ bigEndian (bytesBe64 n) = n.toNat)

/-! ## Padding -/

/-- R56: Pad appends 0x80, the least number k of zero bytes with L + 1 + k = 56 modulo 64, and the bit length. -/
def Obligations.PadAppendsMarkZerosAndLength : Prop :=
  (∀ m : List Byte, ∃ (k : Nat) (field : List Byte),
    pad m = m ++ [0x80#8] ++ List.replicate k 0x00#8 ++ field ∧
    (m.length + 1 + k) % 64 = 56 ∧ (∀ j, j < k → (m.length + 1 + j) % 64 ≠ 56) ∧
    field.length = 8 ∧ bigEndian field = m.length * 8 % 2 ^ 64 ∧
    (pad m).length % 64 = 0 ∧ m.length + 9 ≤ (pad m).length) ∧
  pad [0x61, 0x62, 0x63] = [0x61, 0x62, 0x63, 0x80] ++ List.replicate 52 0x00 ++ [0, 0, 0, 0, 0, 0, 0, 0x18]

/-- Derived (40_padding R57): the count of zero bytes in closed form, its range, and the spec's examples. -/
def Obligations.ZeroCountClosedForm : Prop :=
  (∀ l : Nat, (zeroCount l : Int) = (55 - (l : Int)) % 64 ∧ zeroCount l ≤ 63 ∧
    (l % 64 ≤ 55 → zeroCount l = 55 - l % 64) ∧ (56 ≤ l % 64 → zeroCount l = 119 - l % 64) ∧
    (zeroCount l = 0 ↔ l % 64 = 55) ∧ (zeroCount l = 63 ↔ l % 64 = 56)) ∧
  [0, 3, 55, 56, 63, 64, 119, 120].map zeroCount = [55, 52, 0, 63, 56, 55, 0, 63]

/-- Derived (40_padding R59): the length of Pad(M), its parts, the number of blocks, and that Pad is injective, at
every length. -/
def Obligations.PadShapeAndInjective : Prop :=
  (∀ m : List Byte,
    let l := m.length
    let p := pad m
    p.length = 64 * ((l + 8) / 64 + 1) ∧ p.length = l + 1 + zeroCount l + 8 ∧
    l + 9 ≤ p.length ∧ p.length ≤ l + 72 ∧
    p.take l = m ∧ p[l]? = some 0x80#8 ∧
    (∀ j, l < j → j ≤ l + zeroCount l → p[j]? = some 0x00#8) ∧
    (l % 64 ≤ 55 → p.length / 64 = l / 64 + 1) ∧
    (56 ≤ l % 64 → p.length / 64 = l / 64 + 2 ∧ ∀ j, j < 56 → p[64 * (l / 64 + 1) + j]? = some 0x00#8)) ∧
  (∀ m1 m2 : List Byte, pad m1 = pad m2 → m1 = m2)

/-- Derived (40_padding R58, 90_conflicts C2): the last 8 bytes are the bit length modulo 2^64, so 2^61 more bytes give the
same field. -/
def Obligations.LengthFieldWraps : Prop :=
  ∀ m : List Byte,
    bigEndian ((pad m).drop ((pad m).length - 8)) = m.length * 8 % 2 ^ 64 ∧
    ∀ l : Nat, lengthField (l + 2 ^ 61) = lengthField l

/-! ## Schedule and compression -/

/-- R63, R64: the first 16 schedule words are the block's words, big-endian, and the rest follow the recurrence; an all-zero
block gives all zero words; and the examples of both rules. -/
def Obligations.ScheduleFollowsRecurrence : Prop :=
  (∀ b : Block,
    (∀ (i : Nat) (h : i < 16), (schedule b)[i]'(by omega) =
      be32 (b[4 * i]'(by omega)) (b[4 * i + 1]'(by omega)) (b[4 * i + 2]'(by omega)) (b[4 * i + 3]'(by omega))) ∧
    (∀ (t : Nat) (h : t < 80), 16 ≤ t → (schedule b)[t] =
      rotl32 ((schedule b)[t - 3]'(by omega) ^^^ (schedule b)[t - 8]'(by omega) ^^^
        (schedule b)[t - 14]'(by omega) ^^^ (schedule b)[t - 16]'(by omega)) 1)) ∧
  (∀ (t : Nat) (h : t < 80), (schedule (tabulate fun _ => 0x00#8))[t] = 0#32) ∧
  (let w := schedule (blockAt (pad [0x61, 0x62, 0x63]) 0)
   w[0] = 0x61626380#32 ∧ w[15] = 0x00000018#32 ∧ w[16] = 0xC2C4C700#32 ∧ w[17] = 0#32 ∧ w[18] = 0x00000030#32)

/-- Derived (41_schedule R66): the expansion is linear over bitwise XOR. -/
def Obligations.ScheduleIsLinear : Prop :=
  ∀ (x y : Block) (t : Nat) (h : t < 80),
    (schedule (Vector.zipWith (fun a b => a ^^^ b) x y))[t] = (schedule x)[t] ^^^ (schedule y)[t]

/-- Derived (42_compression R69; the truth table is the spec's inference from the formulas): each result bit is b choosing c
or d for t in 0..19, the majority for 40..59 and the parity for the rest. -/
def Obligations.RoundFunctionTruthTable : Prop :=
  (∀ (t : Nat) (b c d : Word) (i : Nat), t < 80 → i < 32 →
    (roundFn t b c d).getLsbD i =
      if t ≤ 19 then (if b.getLsbD i then c.getLsbD i else d.getLsbD i)
      else if 40 ≤ t ∧ t ≤ 59 then
        decide (2 ≤ (b.getLsbD i).toNat + (c.getLsbD i).toNat + (d.getLsbD i).toNat)
      else decide (((b.getLsbD i).toNat + (c.getLsbD i).toNat + (d.getLsbD i).toNat) % 2 = 1)) ∧
  roundFn 0 0xEFCDAB89 0x98BADCFE 0x10325476 = 0x98BADCFE#32 ∧
  roundFn 20 0xEFCDAB89 0x98BADCFE 0x10325476 = 0x67452301#32 ∧
  roundFn 40 0xEFCDAB89 0x98BADCFE 0x10325476 = 0x98BADCFE#32

/-- Derived (42_compression R70, R71): a round adds its five terms modulo 2^32 with the constant of its range, moves the
registers simultaneously, and D after three rounds is what A was before them, rotated. -/
def Obligations.RoundAddsFiveTermsAndMoves : Prop :=
  (∀ (t : Nat) (w : Word) (r : Working), t < 80 →
    let k := if t ≤ 19 then 0x5A827999 else if t ≤ 39 then 0x6ED9EBA1 else if t ≤ 59 then 0x8F1BBCDC else 0xCA62C1D6
    let q := roundStep t w r
    q.a.toNat = ((rotl32 r.a 5).toNat + (roundFn t r.b r.c r.d).toNat + r.e.toNat + k + w.toNat) % 2 ^ 32 ∧
    q.b = r.a ∧ q.c.toNat = (r.b.toNat * 2 ^ 30 ||| r.b.toNat / 4) % 2 ^ 32 ∧ q.d = r.c ∧ q.e = r.d) ∧
  (∀ (t : Nat) (w0 w1 w2 : Word) (r : Working),
    (roundStep (t + 2) w2 (roundStep (t + 1) w1 (roundStep t w0 r))).d = rotl32 r.a 30)

/-- R73: Compress runs the 80 rounds in increasing t, round t on W[t] and on the registers the round before left, from the
chaining state, and adds the result into it word by word. -/
def Obligations.CompressRunsEightyRounds : Prop :=
  ∀ (h : Chain) (w : Vector Word 80), ∃ trace : Nat → Working,
    trace 0 = ⟨h[0], h[1], h[2], h[3], h[4]⟩ ∧
    (∀ (t : Nat) (ht : t < 80), trace (t + 1) = roundStep t w[t] (trace t)) ∧
    compress h w = #v[h[0] + (trace 80).a, h[1] + (trace 80).b, h[2] + (trace 80).c, h[3] + (trace 80).d,
      h[4] + (trace 80).e]

/-! ## The operations: result, frame and completion -/

/-- Derived (43_accumulator R77; in the last clause the read data becoming not valid is the model's, log 2): NOP leaves every
state as it is; a write with opcode 0 and any other bit set is no NOP and raises E_RSVD. -/
def Obligations.NopLeavesTheState : Prop :=
  ∀ s : State, exec .nop s = .next s ∧ decodeWord 0x10000000000#41 = .ok .nop ∧
    ∀ v : Word, v.toNat % 256 = 0 → v.toNat / 256 ≠ 0 →
      transact ⟨true, 0x00, v⟩ s = .next (recorded 2 (s.setRdata none))

/-- R75, R78: INIT, in every phase, loads the constants, empties the buffer and starts ABSORB; BUF, ERR and ERRCODE stay;
two in a row equal one; the digest of a message before it can no longer be read. -/
def Obligations.InitStartsAMessage : Prop :=
  decodeWord 0x10000000001#41 = .ok .init ∧
  ∀ s : State,
    let t : State := { s with
      chain := #v[0x67452301, 0xEFCDAB89, 0x98BADCFE, 0x10325476, 0xC3D2E1F0]
      buflen := 0, len := 0, phase := .absorb }
    exec .init s = .next t ∧ exec .init t = .next t ∧
    (statusWord t).toNat = 1 + 4 * s.err.toNat ∧
    (∀ j : Fin 5, busRead (Reg.digest j).address t = .error .ePhase) ∧
    (∀ j : Fin 10, busRead (Reg.hex j).address t = .error .ePhase)

/-- R76, R79: PUSHB in ABSORB stores the byte, counts it and, when it is the 64th, compresses the block in the same
transaction; everything else stays. Outside ABSORB it raises E_PHASE. -/
def Obligations.PushbAppendsOneByte : Prop :=
  ∀ (b : Byte) (s : State),
    encode (.pushb b) = ⟨true, 0x00, BitVec.ofNat 32 (b.toNat * 256 + 2)⟩ ∧
    (s.phase = .absorb → ∃ t : State, exec (.pushb b) s = .next t ∧
      t.buf[s.buflen] = b ∧ (∀ i : Fin 64, i ≠ s.buflen → t.buf[i] = s.buf[i]) ∧
      t.len.toNat = (s.len.toNat + 1) % 2 ^ 64 ∧
      t.buflen.val = (if s.buflen.val = 63 then 0 else s.buflen.val + 1) ∧
      t.chain = (if s.buflen.val = 63 then compress s.chain (schedule t.buf) else s.chain) ∧
      t = { s with chain := t.chain, buf := t.buf, buflen := t.buflen, len := t.len }) ∧
    (s.phase ≠ .absorb → exec (.pushb b) s = .next (recorded 3 s))

/-- R82: PUSHW in ABSORB has exactly the effect of PUSHB of its four bytes, most significant first; which bytes of BUF it
writes, where BUFLEN and LEN end, that H stays when no block fills; outside ABSORB it raises E_PHASE and pushes no byte. -/
def Obligations.PushwIsFourPushb : Prop :=
  ∀ (w : Word) (s : State),
    encode (.pushw w) = ⟨true, 0x0C, w⟩ ∧
    (s.phase = .absorb → ∃ t1 t2 t3 t : State,
      exec (.pushb (w.extractLsb' 24 8)) s = .next t1 ∧ exec (.pushb (w.extractLsb' 16 8)) t1 = .next t2 ∧
      exec (.pushb (w.extractLsb' 8 8)) t2 = .next t3 ∧ exec (.pushb (w.extractLsb' 0 8)) t3 = .next t ∧
      exec (.pushw w) s = .next t ∧
      (∀ i : Fin 64, (∀ k, k < 4 → i.val ≠ (s.buflen.val + k) % 64) → t.buf[i] = s.buf[i]) ∧
      t.len.toNat = (s.len.toNat + 4) % 2 ^ 64 ∧ t.buflen.val = (s.buflen.val + 4) % 64 ∧
      (s.buflen.val < 60 → t.chain = s.chain) ∧
      t = { s with chain := t.chain, buf := t.buf, buflen := t.buflen, len := t.len }) ∧
    (s.phase ≠ .absorb → exec (.pushw w) s = .next (recorded 3 s))

/-- R60, R80: FINAL in ABSORB pads the remainder in BUF to one block (BUFLEN up to 55) or two (56 to 63), compresses them,
and ends in DONE with BUFLEN 0; LEN, ERR and ERRCODE stay. Outside ABSORB it raises E_PHASE. -/
def Obligations.FinalPadsAndCompresses : Prop :=
  ∀ s : State,
    let remainderAndMark (b : Block) : Prop := (∀ i : Fin 64, i < s.buflen → b[i] = s.buf[i]) ∧ b[s.buflen] = 0x80#8
    let lengthAtEnd (b : Block) : Prop :=
      ∀ (k : Nat) (h : k < 8), (b[56 + k]'(by omega)).toNat = s.len.toNat * 8 % 2 ^ 64 / 2 ^ (8 * (7 - k)) % 256
    (s.phase = .absorb → s.buflen.val ≤ 55 → ∃ b : Block,
      remainderAndMark b ∧ (∀ i : Fin 64, s.buflen < i → i.val < 56 → b[i] = 0x00#8) ∧ lengthAtEnd b ∧
      exec .final s = .next { s with
        chain := compress s.chain (schedule b), buf := b, buflen := 0, phase := .done }) ∧
    (s.phase = .absorb → 56 ≤ s.buflen.val → ∃ b1 b2 : Block,
      remainderAndMark b1 ∧ (∀ i : Fin 64, s.buflen < i → b1[i] = 0x00#8) ∧
      (∀ i : Fin 64, i.val < 56 → b2[i] = 0x00#8) ∧ lengthAtEnd b2 ∧
      exec .final s = .next { s with
        chain := compress (compress s.chain (schedule b1)) (schedule b2), buf := b2, buflen := 0, phase := .done }) ∧
    (s.phase ≠ .absorb → exec .final s = .next (recorded 3 s))

/-- R81: CLRERR clears ERR and ERRCODE, in every phase, and changes nothing else; STATUS loses its bit 2. -/
def Obligations.ClrerrClearsOnlyTheError : Prop :=
  decodeWord 0x10000000004#41 = .ok .clrerr ∧
  ∀ s : State,
    exec .clrerr s = .next { s with err := false, errcode := 0 } ∧
    (statusWord { s with err := false, errcode := 0 }).toNat + 4 * s.err.toNat = (statusWord s).toNat

/-- R37: a read makes its checks in this order, returns the register's value from before the read and changes nothing else,
or raises, returns 0 and changes only ERR and ERRCODE (and the model's fault mark, log 5). -/
def Obligations.ReadFollowsTheRegisterMap : Prop :=
  ∀ (a : Addr) (s : State),
    let n := a.toNat
    let returns (v : Word) : Prop := exec (.rd a) s = .next { s with rdata := some v }
    let raises (c : BitVec 3) : Prop := exec (.rd a) s = .next { recorded c s with rdata := some 0#32 }
    (n % 4 ≠ 0 → raises 5) ∧
    (n = 0x04 → returns (statusWord s)) ∧
    (n = 0x08 → returns (BitVec.ofNat 32 s.errcode.toNat)) ∧
    (n = 0x10 → returns (BitVec.ofNat 32 (s.len.toNat % 2 ^ 32))) ∧
    (n = 0x14 → returns (BitVec.ofNat 32 (s.len.toNat / 2 ^ 32))) ∧
    (∀ j : Fin 5, n = 0x20 + 4 * j.val →
      (s.phase = .done → returns s.chain[j]) ∧
      (s.phase ≠ .done → raises 3)) ∧
    (∀ j : Fin 10, n = 0x40 + 4 * j.val →
      (s.phase = .done → returns (be32 (hexAt s.chain (4 * j)) (hexAt s.chain (4 * j + 1)) (hexAt s.chain (4 * j + 2))
        (hexAt s.chain (4 * j + 3)))) ∧
      (s.phase ≠ .done → raises 3)) ∧
    (n % 4 = 0 → n ∉ [0x04, 0x08, 0x10, 0x14, 0x20, 0x24, 0x28, 0x2C, 0x30, 0x40, 0x44, 0x48, 0x4C, 0x50, 0x54, 0x58, 0x5C,
      0x60, 0x64] → raises 4)

/-- Derived (10_state R27; the read data becoming not valid at a write is the model's, log 2): STATUS = PHASE + 4 * ERR + 256 *
BUFLEN; a read has no side effect; a write raises E_ADDR and changes nothing but ERR, ERRCODE, the model's fault mark (log 5)
and the read data, which it leaves not valid; it reads 0 after reset. -/
def Obligations.StatusWordLayout : Prop :=
  (∀ s : State, ∃ v : Word, exec (.rd 0x04) s = .next { s with rdata := some v } ∧
    v.toNat = (match s.phase with | .idle => 0 | .absorb => 1 | .done => 2) + 4 * s.err.toNat + 256 * s.buflen.val) ∧
  (∀ (v : Word) (s : State), transact ⟨true, 0x04, v⟩ s = .next (recorded 4 (s.setRdata none))) ∧
  exec (.rd 0x04) State.reset = .next { State.reset with rdata := some 0#32 }

/-- R84: the digest is the five words, big-endian, 20 bytes, in DONE it stays until the next INIT (or a reset), and there the
host gets it as the five words DIGEST0..4. -/
def Obligations.DigestIsBigEndianAndStable : Prop :=
  (∀ h : Chain, (digestBytes h).length = 20 ∧
    ∀ i, i < 20 → (digestBytes h)[i]? = some (BitVec.ofNat 8
      ((h.toList.getD (i / 4) 0#32).toNat / 2 ^ (24 - 8 * (i % 4))))) ∧
  (∀ (t : Transaction) (s u : State), s.phase = .done → decode t ≠ .ok .init → transact t s = .next u →
    u.chain = s.chain ∧ u.phase = .done) ∧
  (∀ (s : State) (j : Fin 5), s.phase = .done →
    exec (.rd (BitVec.ofNat 8 (0x20 + 4 * j.val))) s = .next { s with rdata := some s.chain[j] })

/-- Derived (43_accumulator R85, 10_state R32; that the high nibble comes first and the codes are ASCII is the spec's
"general knowledge", log 16): characters 8j .. 8j+7 are the hexadecimal digits of H[j], most significant first, and HEXj
holds four of them, the earlier in the more significant byte. -/
def Obligations.HexWindowSpellsTheDigest : Prop :=
  ∀ h : Chain,
    (∀ (j : Fin 5) (k : Nat), k < 8 →
      let digit := h[j].toNat / 16 ^ (7 - k) % 16
      (hexAt h (8 * j + k)).toNat = if digit ≤ 9 then 0x30 + digit else 0x61 + (digit - 10)) ∧
    (∀ (j : Fin 10) (k : Nat), k < 4 → (bytesBe32 (hexWord h j))[k]? = some (hexAt h (4 * j + k)))

/-! ## Errors -/

/-- Derived (60_exceptions R93; the read data becoming not valid at a write is the model's, log 2): raise writes ERR and
ERRCODE only if ERR = 0; a transaction that raises (the model's fault mark shows it, log 5) changes nothing else but the read
data, which is 0 for a read; ERR = 1 blocks and alters no operation: of two states that differ only in the error state, where
one transaction answers in the one it answers in the other, the next states again differ only so, and every read but that of
STATUS and ERRCODE returns the same. -/
def Obligations.RaiseRecordsAndChangesNothingElse : Prop :=
  (∀ (e : ProtocolError) (s : State), raiseError e s = recorded e.code s) ∧
  (∀ (t : Transaction) (s u : State), transact t s = .next u → s.faultMark = false → u.faultMark = true →
    u = { s with err := true, errcode := u.errcode, faultMark := true, rdata := if t.we then none else some 0#32 }) ∧
  (∀ (t : Transaction) (s1 s2 u1 : State), SameButErr s1 s2 → transact t s1 = .next u1 →
    ∃ u2, transact t s2 = .next u2 ∧ SameButErr u1 u2 ∧
      (t.we = true ∨ t.addr ≠ 0x04 ∧ t.addr ≠ 0x08 → u1.rdata = u2.rdata))

/-- R92, R94: a transaction raises exactly when it has one of the causes of R92, the first in the order E_ALIGN, E_ADDR,
E_OPCODE, E_RSVD, E_PHASE; the first code since the last CLRERR is kept; without a cause only CLRERR writes ERR. -/
def Obligations.FirstCauseIsRecorded : Prop :=
  ∀ (t : Transaction) (s : State), ∃ u, transact t s = .next u ∧
    (∀ c, causeOf t s.phase = some c →
      u.err = true ∧ u.faultMark = true ∧ u.errcode.toNat = (if s.err then s.errcode.toNat else c)) ∧
    (causeOf t s.phase = none → u.faultMark = s.faultMark ∧
      (decode t = .ok .clrerr → u.err = false ∧ u.errcode = 0) ∧
      (decode t ≠ .ok .clrerr → u.err = s.err ∧ u.errcode = s.errcode))

/-- Derived (60_exceptions R96; the fault mark is the model's own field, log 5): no run clears the mark, and a run that ends
without it has recorded no new error. -/
def Obligations.FaultMarkIsSticky : Prop :=
  ∀ (k : Nat) (s t : State), steps k s = .next t →
    (s.faultMark = true → t.faultMark = true) ∧
    (t.faultMark = false → s.err = false → t.err = false)

/-! ## The whole machine -/

/-- Derived (20_memory R36, 30_encoding R47; the list of what the host presents is the model's choice, log 1): a step takes
the next transaction and runs the operation it decodes to, with the read data not valid (log 2); an illegal one records its
error; a reset resets; with nothing presented nothing changes. -/
def Obligations.StepRunsTheDecodedOperation : Prop :=
  ∀ (s : State) (rest : List HostEvent),
    (∀ (t : Transaction) (i : Instr), s.host = .transaction t :: rest → decode t = .ok i →
      step s = exec i { s with host := rest, rdata := none }) ∧
    (∀ (t : Transaction) (e : ProtocolError), s.host = .transaction t :: rest → decode t = .error e →
      step s = .next (raiseError e { s with host := rest, rdata := none })) ∧
    (s.host = .reset :: rest → step s = .next (resetCore { s with host := rest })) ∧
    (s.host = [] → step s = .next s) ∧
    (∀ (w : TWord) (i : Instr), decodeWord w = .ok i →
      step (s.withFetchWord 48 w.toNat) = exec i { s with rdata := none })

/-- Derived (10_state R33): after a reset PHASE is IDLE and ERR, ERRCODE, BUFLEN and LEN are 0; STATUS, ERRCODE, LEN_LO and
LEN_HI read 0; a digest or hex read raises E_PHASE (code 3) and returns 0; CMD and DIN hold nothing, so a read of them raises
E_ADDR (code 4: R26, R29, 20_memory R37). H and BUF are unspecified: nothing is said of them, and with any other value in them
every read answers the same (the spec's inference in R24 item 4). What the host presents stays (log 1). -/
def Obligations.ResetLeavesTheStatedValues : Prop :=
  ∀ (s : State) (rest : List HostEvent), s.host = .reset :: rest →
    ∃ t : State, step s = .next t ∧ t.host = rest ∧
      ∀ u : State, u = t ∨ u = State.reset →
        u.phase = .idle ∧ u.err = false ∧ u.errcode = 0 ∧ u.buflen = 0 ∧ u.len = 0 ∧
        (∀ a : Addr, a.toNat ∈ [0x04, 0x08, 0x10, 0x14] → exec (.rd a) u = .next { u with rdata := some 0#32 }) ∧
        (∀ j : Fin 5, exec (.rd (BitVec.ofNat 8 (0x20 + 4 * j.val))) u = .next { recorded 3 u with rdata := some 0#32 }) ∧
        (∀ j : Fin 10, exec (.rd (BitVec.ofNat 8 (0x40 + 4 * j.val))) u = .next { recorded 3 u with rdata := some 0#32 }) ∧
        (∀ a : Addr, a = 0x00 ∨ a = 0x0C → exec (.rd a) u = .next { recorded 4 u with rdata := some 0#32 }) ∧
        ∀ (h : Chain) (b : Block) (a : Addr), busRead a { u with chain := h, buf := b } = busRead a u

/-- Derived (00_scope R10, 60_exceptions R91, 70_reset R103): no run of any length stops, from any state. -/
def Obligations.NoRunEverStops : Prop :=
  ∀ (k : Nat) (s : State), ∃ t, steps k s = .next t

/-- Derived (10_state R23): INIT goes to ABSORB from any phase, FINAL in ABSORB goes to DONE, a reset goes to IDLE, and no
other event changes PHASE. -/
def Obligations.OnlyInitFinalAndResetChangePhase : Prop :=
  ∀ (e : HostEvent) (s t : State), perform e s = .next t →
    (e = .reset ∧ t.phase = .idle) ∨
    (∃ x, e = .transaction x ∧
      ((decode x = .ok .init ∧ t.phase = .absorb) ∨
       (decode x = .ok .final ∧ s.phase = .absorb ∧ t.phase = .done) ∨
       (decode x ≠ .ok .init ∧ ¬(decode x = .ok .final ∧ s.phase = .absorb) ∧ t.phase = s.phase)))

/-- Derived (10_state R14, R20, R21, R22; 43_accumulator R90): who writes H, BUF, BUFLEN and LEN. -/
def Obligations.WhoWritesTheMessageState : Prop :=
  ∀ (i : Instr) (s t : State), exec i s = .next t →
    (t.chain ≠ s.chain → i = .init ∨ s.phase = .absorb ∧
      (i = .final ∨ (∃ b, i = .pushb b ∧ s.buflen.val = 63) ∨ ∃ w, i = .pushw w ∧ 60 ≤ s.buflen.val)) ∧
    (t.buf ≠ s.buf → s.phase = .absorb ∧ (i = .final ∨ (∃ b, i = .pushb b) ∨ ∃ w, i = .pushw w)) ∧
    (t.buflen ≠ s.buflen → i = .init ∨ s.phase = .absorb ∧ (i = .final ∨ (∃ b, i = .pushb b) ∨ ∃ w, i = .pushw w)) ∧
    (t.len ≠ s.len → i = .init ∨ s.phase = .absorb ∧ ((∃ b, i = .pushb b) ∨ ∃ w, i = .pushw w)) ∧
    t.host = s.host ∧ t.draws = s.draws ∧ (t.rdata ≠ s.rdata → ∃ a, i = .rd a)

/-- Derived (20_memory R41): a read may be repeated: the second returns the same and changes nothing. -/
def Obligations.ReadIsIdempotent : Prop :=
  ∀ (a : Addr) (s t : State), exec (.rd a) s = .next t → exec (.rd a) t = .next t

/-- Derived (10_state R24; the clause on the fault mark is the model's, log 5): the invariant holds right after the first
reset and after a reset at any state. -/
def Obligations.ResetMeetsTheInvariant : Prop :=
  State.reset.Inv ∧ (∀ n : Nat, (State.atReset n).Inv) ∧ ∀ s : State, (resetCore s).Inv

/-- Derived (10_state R24; the clause on the fault mark is the model's, log 5): every step keeps the invariant. -/
def Obligations.EveryStepKeepsTheInvariant : Prop :=
  ∀ s t : State, s.Inv → step s = .next t → t.Inv

/-- Derived (10_state R24 item 2): INIT starts the history of an empty message, and each operation of a message extends it
by the bytes it pushes. -/
def Obligations.PushesExtendTheAbsorbedMessage : Prop :=
  (∀ s : State, ∃ t, exec .init s = .next t ∧ t.Absorbed []) ∧
  (∀ (m : List Byte) (s : State) (i : Instr), s.Absorbed m → feeds i = true →
    ∃ t, exec i s = .next t ∧ t.Absorbed (m ++ pushedBytes i))

/-- Derived (40_padding R61, 10_state R24 item 3): after the bytes m the one or two blocks PadFinal processes are the last
blocks of Pad(m), in order; the blocks before them are the full blocks of m; and FINAL runs Compress on PadFinal's blocks and
leaves the SHA-1 chaining state of m. `sha1` is the spec's function R86, for every length: at 2^61 bytes and more it has the
wrapped length field (93 U1, log 13). -/
def Obligations.FinalLeavesTheDigestOfTheMessage : Prop :=
  ∀ (m : List Byte) (s : State), s.Absorbed m →
    finalBlocks s = (List.range ((pad m).length / 64 - m.length / 64)).map
      (fun i => blockAt (pad m) (m.length / 64 + i)) ∧
    (∀ i, i < m.length / 64 → blockAt (pad m) i = blockAt m i) ∧
    ∃ t, exec .final s = .next t ∧
      t.chain = (finalBlocks s).foldl (fun h b => compress h (schedule b)) s.chain ∧
      t.chain = sha1 m ∧ t.phase = .done ∧ t.buflen = 0 ∧
      t.len = BitVec.ofNat 64 m.length ∧ t.err = s.err ∧ t.errcode = s.errcode

/-- Derived (43_accumulator R87): from any state, INIT, any mixture of PUSHB, PUSHW, NOP, CLRERR and RD of STATUS, ERRCODE,
LEN_LO and LEN_HI, then FINAL, leaves PHASE = DONE, H = SHA1(M), LEN = len(M) mod 2^64 and BUFLEN = 0, and only a CLRERR of
the host's changes ERR (log 15). `sha1` is the spec's function R86, for every length: at 2^61 bytes and more it has the
wrapped length field, and is then not claimed to be the standard's digest (93 U1, log 13). These are the hardware's values,
which R87 gives in every state; the claim R96 wants, under "no fault mark", is FaultFreeRunLeavesTheDigestMeant. The list of
what the host presents is the model's (log 1). -/
def Obligations.WellFormedRunComputesSha1 : Prop :=
  ∀ (s : State) (body : List Instr) (rest : List HostEvent), (∀ i ∈ body, feeds i = true) →
    s.host = programOf (.init :: body ++ [.final]) ++ rest →
    ∃ t, steps (body.length + 2) s = .next t ∧
      t.phase = .done ∧ t.chain = sha1 (messageOf body) ∧ t.len = BitVec.ofNat 64 (messageOf body).length ∧
      t.buflen = 0 ∧ t.host = rest ∧ t.faultMark = s.faultMark ∧
      (.clrerr ∉ body → t.err = s.err ∧ t.errcode = s.errcode) ∧
      (.clrerr ∈ body → t.err = false ∧ t.errcode = 0)

/-- Derived (30_encoding R55, 43_accumulator R83, R86, R87; the list of what the host presents is the model's, log 1): from any
state the pseudo-operation HASH of the bytes m, the one-shot mode, returns word j of SHA1(m) by its read of DIGESTj and leaves
ERR, ERRCODE and the fault mark as they were; from a state with no fault mark the run therefore raises nothing (R96), and only
there is the word claimed to be the digest the host meant. `sha1` is the spec's function R86, for every length: at 2^61 bytes
and more it has the wrapped length field (93 U1, log 13). -/
def Obligations.HashReturnsTheDigest : Prop :=
  ∀ (m : List Byte) (s : State) (rest : List HostEvent) (j : Fin 5),
    s.host = programOf (hashOps m) ++ rest →
    ∃ t, steps (m.length + 3 + j.val) s = .next t ∧ t.rdata = some (sha1 m)[j] ∧ t.faultMark = s.faultMark ∧
      (s.noFault → t.noFault) ∧ t.err = s.err ∧ t.errcode = s.errcode

/-- Derived (43_accumulator R88, R89; log 1): the digest depends on the pushed bytes alone: not on how they were cut into PUSHB and
PUSHW, nor on anything before INIT. -/
def Obligations.DigestDependsOnTheBytesAlone : Prop :=
  ∀ (s1 s2 t1 t2 : State) (body1 body2 : List Instr) (rest1 rest2 : List HostEvent),
    (∀ i ∈ body1, feeds i = true) → (∀ i ∈ body2, feeds i = true) → messageOf body1 = messageOf body2 →
    s1.host = programOf (.init :: body1 ++ [.final]) ++ rest1 →
    s2.host = programOf (.init :: body2 ++ [.final]) ++ rest2 →
    steps (body1.length + 2) s1 = .next t1 → steps (body2.length + 2) s2 = .next t2 →
    t1.chain = t2.chain ∧ t1.len = t2.len ∧
    ∀ a : Addr, 0x20 ≤ a.toNat → busRead a t1 = busRead a t2

/-- Derived (10_state R24 item 4, 43_accumulator R89): two states that differ only in dead state (BUF at and above BUFLEN, H
in IDLE, the model's count of draws) step to states that differ only so, with the same read data: no unwritten or stale byte
and no reset value of H or BUF reaches the host. -/
def Obligations.DeadStateNeverReachesTheHost : Prop :=
  ∀ (k : Nat) (s1 s2 t1 : State), SameLive s1 s2 → steps k s1 = .next t1 →
    ∃ t2, steps k s2 = .next t2 ∧ SameLive t1 t2

/-- Derived (10_state R14, 42_compression R72): outside DONE the chaining state is hidden: with another H in its place, a
transaction returns the same read data and leaves the same state but for H. -/
def Obligations.ChainIsHiddenBeforeDone : Prop :=
  ∀ (t : Transaction) (s u : State) (h : Chain), s.phase ≠ .done → transact t s = .next u →
    ∃ h', transact t { s with chain := h } = .next { u with chain := h' }

/-! ## The port at the level of clock edges -/

/-- Derived (20_memory R36, 70_reset R104; the edge level above the transaction level is the model's choice, log 7): however
many edges each transaction waits for `ready`, and however long the host pauses, the edges leave the state the transactions
alone leave. -/
def Obligations.ReadyDelayIsInvisible : Prop :=
  ∀ (plan : List (Nat × Nat × Transaction)) (s : State), ∃ t : State,
    Port.run (plan.flatMap edgesOf) ⟨s, true, none⟩ = .next ⟨t, true, none⟩ ∧
    steps plan.length (s.setHost (plan.map fun x => .transaction x.2.2)) = .next (t.setHost [])

/-- Derived (70_reset R100, 93 U3, U4; log 8, 9): reset at an edge takes precedence over a transaction presented there; and
an edge is refused only where the host breaks one of its two duties. -/
def Obligations.PortRefusesOnlyBrokenDuties : Prop :=
  ∀ (e : Edge) (p : Port),
    (e.rst = true → p.edge e = .next ⟨resetCore p.core, true, none⟩) ∧
    (p.edge e = .refused .unstableTransaction ↔
      e.rst = false ∧ ∃ t, p.held = some t ∧ ¬(e.req = true ∧ e.we = t.we ∧ e.addr = t.addr ∧ e.wdata = t.wdata)) ∧
    (p.edge e = .refused .beforeFirstReset ↔
      e.rst = false ∧ p.wasReset = false ∧ e.req = true ∧ (p.held = none ∨ p.held = some e.transaction)) ∧
    (∀ r, p.edge e = .refused r → r = .unstableTransaction ∨ r = .beforeFirstReset) ∧
    (∀ r, p.edge e ≠ .fault r)

/-! ## Claims under the premise of 60_exceptions R96 -/

/-- Derived (60_exceptions R96, 43_accumulator R87, R89; the fault mark at a reset is the model's, log 5, and the list of what
the host presents, log 1): whatever the host presents, from any state, if the run ends with no fault mark then the message the
host meant since its last INIT (`meantBy`: every byte it presented, taken or not) is the one the core has: LEN is its length,
and in DONE H is its SHA1 and DIGEST0..4 and HEX0..9 read so. Without the premise it is false: a byte pushed in DONE is meant
and dropped. `sha1` is the spec's function R86 at every length (93 U1, log 13). -/
def Obligations.FaultFreeRunLeavesTheDigestMeant : Prop :=
  ∀ (s t : State) (es rest : List HostEvent) (m : List Byte),
    s.host = es ++ rest → steps es.length s = .next t → t.noFault → meantBy es = some m →
    t.phase ≠ .idle ∧ t.len = BitVec.ofNat 64 m.length ∧
    (t.phase = .done → t.chain = sha1 m ∧
      (∀ j : Fin 5, busRead (BitVec.ofNat 8 (0x20 + 4 * j.val)) t = .ok (sha1 m)[j]) ∧
      ∀ j : Fin 10, busRead (BitVec.ofNat 8 (0x40 + 4 * j.val)) t = .ok (hexWord (sha1 m) j))
end

