-- ==== Sys2Proof/Laws/Decode.lean ====
section
/-! SUPPORT. The fields of a command word and of an address as numbers, and what the decoder can answer. -/

namespace Sys2Proof
open Machine

/-- Concatenation as a number. -/
theorem append_toNat {m n : Nat} (x : BitVec m) (y : BitVec n) : (x ++ y).toNat = x.toNat * 2 ^ n + y.toNat := by
  rw [BitVec.toNat_append, ← Nat.shiftLeft_add_eq_or_of_lt y.isLt, Nat.shiftLeft_eq]

theorem opcodeOf_toNat (v : Word) : (opcodeOf v).toNat = v.toNat % 256 := by
  simp [opcodeOf, BitVec.extractLsb'_toNat]

theorem imm8Of_toNat (v : Word) : (imm8Of v).toNat = v.toNat / 256 % 256 := by
  simp [imm8Of, BitVec.extractLsb'_toNat, Nat.shiftRight_eq_div_pow]

theorem zeroOf_toNat (v : Word) : (zeroOf v).toNat = v.toNat / 65536 := by
  have := v.isLt
  simp only [zeroOf, BitVec.extractLsb'_toNat, Nat.shiftRight_eq_div_pow]
  omega

theorem aligned_iff (a : Addr) : aligned a = true ↔ a.toNat % 4 = 0 := by
  simp [aligned, ← BitVec.toNat_inj, BitVec.extractLsb'_toNat]

theorem not_aligned_iff (a : Addr) : aligned a = false ↔ a.toNat % 4 ≠ 0 := by
  rw [← Bool.not_eq_true, aligned_iff]

theorem zeroOf_eq_zero (v : Word) : zeroOf v = 0 ↔ v.toNat / 65536 = 0 := by
  rw [← BitVec.toNat_inj, zeroOf_toNat]; rfl

theorem imm8Of_eq_zero (v : Word) : imm8Of v = 0 ↔ v.toNat / 256 % 256 = 0 := by
  rw [← BitVec.toNat_inj, imm8Of_toNat]; rfl

theorem opcodeOf_eq (v : Word) (c : Byte) : opcodeOf v = c ↔ v.toNat % 256 = c.toNat := by
  rw [← BitVec.toNat_inj, opcodeOf_toNat]

theorem lt_opcodeOf (v : Word) (c : Byte) : c < opcodeOf v ↔ c.toNat < v.toNat % 256 := by
  rw [BitVec.lt_def, opcodeOf_toNat]

/-- A command word is given by its three fields. -/
theorem commandWord_fields (v : Word) (h : zeroOf v = 0) : commandWord (imm8Of v) (opcodeOf v) = v := by
  apply BitVec.eq_of_toNat_eq
  have hv := v.isLt
  have hz := (zeroOf_eq_zero v).1 h
  simp only [commandWord, append_toNat, opcodeOf_toNat, imm8Of_toNat, BitVec.toNat_ofNat]
  omega

/-- What the decoder reads from a write to CMD when it takes it. -/
theorem decodeCommand_ok {v : Word} {i : Instr} (h : decodeCommand v = .ok i) :
    zeroOf v = 0 ∧
    ((opcodeOf v = 0x00 ∧ imm8Of v = 0 ∧ i = .nop) ∨ (opcodeOf v = 0x01 ∧ imm8Of v = 0 ∧ i = .init) ∨
     (opcodeOf v = 0x02 ∧ i = .pushb (imm8Of v)) ∨ (opcodeOf v = 0x03 ∧ imm8Of v = 0 ∧ i = .final) ∨
     (opcodeOf v = 0x04 ∧ imm8Of v = 0 ∧ i = .clrerr)) := by
  unfold decodeCommand at h
  split_ifs at h with h1 h2 h3 h4 h5 h6 h7
  all_goals first
    | (simp only [not_and, Decidable.not_not] at h2 h3; cases h; simp_all; done)
    | skip
  simp only [not_and, Decidable.not_not] at h2 h3
  have h8 : opcodeOf v = 0x04 := by
    rw [lt_opcodeOf] at h1
    rw [opcodeOf_eq] at *
    simp at *
    omega
  cases h
  simp_all

/-- What the decoder reads from a transaction when it takes it. -/
theorem decode_ok {t : Transaction} {i : Instr} (h : decode t = .ok i) :
    (t.we = false ∧ i = .rd t.addr) ∨
    (t.we = true ∧ t.addr = 0x00 ∧ decodeCommand t.wdata = .ok i) ∨
    (t.we = true ∧ t.addr = 0x0C ∧ i = .pushw t.wdata) := by
  unfold decode at h
  split_ifs at h <;> simp_all

end Sys2Proof
end

