-- ==== Sys2Proof/Laws/Primitives.lean ====
section
/-! SUPPORT. What the block operations do, byte by byte; the lemmas the proofs about BUF cite instead of unfolding. -/

namespace Sys2Proof.Machine

theorem tabulate_getElem (f : Nat → Byte) (i : Nat) (h : i < 64) : (tabulate f)[i] = f i := by
  simp [tabulate]

theorem tabulate_get_fin (f : Nat → Byte) (i : Fin 64) : (tabulate f)[i] = f i := tabulate_getElem f i i.isLt

/-- Two blocks with equal bytes are equal. -/
theorem block_ext {a b : Block} (h : ∀ i : Fin 64, a[i] = b[i]) : a = b :=
  Vector.ext fun i hi => h ⟨i, hi⟩

theorem mapBytes_get (f : Nat → Byte → Byte) (b : Block) (i : Fin 64) : (mapBytes f b)[i] = f i b[i] := by
  simp [mapBytes]

/-- zeroFill writes zero in its range and nothing else. -/
theorem zeroFill_get (lo hi : Nat) (b : Block) (i : Fin 64) :
    (zeroFill lo hi b)[i] = if lo ≤ i.val ∧ i.val < hi then 0#8 else b[i] := mapBytes_get _ b i

/-- putLength writes the last eight bytes and nothing else. -/
theorem putLength_get (n : Dword) (b : Block) (i : Fin 64) :
    (putLength n b)[i] = if 56 ≤ i.val then (bytesBe64 n).getD (i.val - 56) 0#8 else b[i] := mapBytes_get _ b i

/-- Writing one byte of a block. -/
theorem block_set_get (b : Block) (k i : Fin 64) (v : Byte) :
    (b.set k v)[i] = if i = k then v else b[i] := by
  have h := Vector.getElem_set (xs := b) (x := v) (i := k) (j := i) (hi := k.isLt) (hj := i.isLt)
  simp only [Fin.getElem_fin, h]
  by_cases e : i = k
  · simp [e]
  · simp [e, Fin.val_ne_of_ne (Ne.symm e)]

@[simp] theorem bytesBe32_length (w : Word) : (bytesBe32 w).length = 4 := rfl
@[simp] theorem bytesBe64_length (n : Dword) : (bytesBe64 n).length = 8 := rfl
@[simp] theorem lengthField_length (l : Nat) : (lengthField l).length = 8 := rfl
@[simp] theorem digestBytes_length (h : Chain) : (digestBytes h).length = 20 := rfl

theorem expand_zero (w : Vector Word 16) : expand w 0 = w := rfl

/-- One step of Expand. -/
theorem expand_succ (w : Vector Word 16) (n : Nat) :
    expand w (n + 1) = (expand w n).push (rotl32 ((expand w n)[13 + n] ^^^ (expand w n)[8 + n] ^^^ (expand w n)[2 + n] ^^^
      (expand w n)[n]) 1) := rfl

/-- A step of Expand leaves the words there were. -/
theorem expand_get_lt (w : Vector Word 16) (n i : Nat) (h : i < 16 + n) :
    (expand w (n + 1))[i]'(by omega) = (expand w n)[i] := by
  simp only [expand_succ]
  exact Vector.getElem_push_lt h

/-- A step of Expand appends the word of the recurrence. -/
theorem expand_get_new (w : Vector Word 16) (n : Nat) : (expand w (n + 1))[16 + n]'(by omega) =
    rotl32 ((expand w n)[13 + n] ^^^ (expand w n)[8 + n] ^^^ (expand w n)[2 + n] ^^^ (expand w n)[n]) 1 := by
  simp only [expand_succ]
  exact Vector.getElem_push_eq

/-- Word i of 4n bytes. -/
theorem wordsOf_get (n : Nat) (bs : List Byte) (h : bs.length = 4 * n) (i : Nat) (hi : i < n) :
    (wordsOf bs)[i]? = some (be32 (bs[4 * i]'(by omega)) (bs[4 * i + 1]'(by omega)) (bs[4 * i + 2]'(by omega))
      (bs[4 * i + 3]'(by omega))) := by
  induction n generalizing bs i with
  | zero => omega
  | succ n ih =>
    match bs, h with
    | b0 :: b1 :: b2 :: b3 :: rest, h =>
      cases i with
      | zero => rfl
      | succ i =>
        simp only [wordsOf, List.getElem?_cons_succ, ih rest (by simp at h; omega) i (by omega)]
        rfl
    | [], h => simp at h
    | [_], h => simp at h; omega
    | [_, _], h => simp at h; omega
    | [_, _, _], h => simp at h; omega

/-- Word i of a block. -/
theorem loadWords_get (b : Block) (i : Nat) (h : i < 16) : (loadWords b)[i] =
    be32 (b[4 * i]'(by omega)) (b[4 * i + 1]'(by omega)) (b[4 * i + 2]'(by omega)) (b[4 * i + 3]'(by omega)) :=
  (List.getElem?_eq_some_iff.1 (wordsOf_get 16 b.toList (by simp) i h)).2

theorem runRounds_nil (t : Nat) (r : Working) : runRounds t [] r = r := rfl

/-- One round, then the rounds after it. -/
theorem runRounds_cons (t : Nat) (w : Word) (ws : List Word) (r : Working) :
    runRounds t (w :: ws) r = runRounds (t + 1) ws (roundStep t w r) := rfl

/-- The bytes of a block of a byte sequence. -/
theorem blockAt_get (p : List Byte) (n : Nat) (i : Fin 64) (h : 64 * n + i.val < p.length) :
    (blockAt p n)[i] = p[64 * n + i.val] := by
  have hl : i.val < ((p.drop (64 * n)).take 64).length := by
    have := i.isLt
    simp only [List.length_take, List.length_drop]
    omega
  show (blockOf (p.drop (64 * n))).toArray[i.val]'_ = _
  simp only [blockOf, List.getElem_toArray, List.getElem_append_left hl, List.getElem_take, List.getElem_drop]

theorem chainAfter_zero (p : List Byte) : chainAfter p 0 = iv := rfl
theorem chainAfter_succ (p : List Byte) (n : Nat) :
    chainAfter p (n + 1) = compress (chainAfter p n) (schedule (blockAt p n)) := rfl

/-- Bytes appended after a block do not change it. -/
theorem blockAt_append (m x : List Byte) (n : Nat) (h : 64 * (n + 1) ≤ m.length) : blockAt (m ++ x) n = blockAt m n := by
  apply block_ext
  intro i
  have := i.isLt
  rw [blockAt_get _ _ _ (by simp; omega), blockAt_get _ _ _ (by omega), List.getElem_append_left]

/-- Bytes appended after n blocks do not change what they leave. -/
theorem chainAfter_append (m x : List Byte) (n : Nat) (h : 64 * n ≤ m.length) :
    chainAfter (m ++ x) n = chainAfter m n := by
  induction n with
  | zero => rfl
  | succ n ih => rw [chainAfter_succ, chainAfter_succ, ih (by omega), blockAt_append _ _ _ h]

end Sys2Proof.Machine
end

