-- ==== Sys2Proof/Laws/State.lean ====
section
/-! SUPPORT. One lemma per field per update of State, true by rfl, so that no proof unfolds a record update. -/

namespace Sys2Proof.Machine.State

variable (s : State)

@[simp] theorem setChain_chain (h : Chain) : (s.setChain h).chain = h := rfl
@[simp] theorem setChain_buf (h : Chain) : (s.setChain h).buf = s.buf := rfl
@[simp] theorem setChain_buflen (h : Chain) : (s.setChain h).buflen = s.buflen := rfl
@[simp] theorem setChain_len (h : Chain) : (s.setChain h).len = s.len := rfl
@[simp] theorem setChain_phase (h : Chain) : (s.setChain h).phase = s.phase := rfl
@[simp] theorem setChain_err (h : Chain) : (s.setChain h).err = s.err := rfl
@[simp] theorem setChain_errcode (h : Chain) : (s.setChain h).errcode = s.errcode := rfl
@[simp] theorem setChain_rdata (h : Chain) : (s.setChain h).rdata = s.rdata := rfl
@[simp] theorem setChain_host (h : Chain) : (s.setChain h).host = s.host := rfl
@[simp] theorem setChain_faultMark (h : Chain) : (s.setChain h).faultMark = s.faultMark := rfl
@[simp] theorem setChain_draws (h : Chain) : (s.setChain h).draws = s.draws := rfl

@[simp] theorem setBuf_chain (b : Block) : (s.setBuf b).chain = s.chain := rfl
@[simp] theorem setBuf_buf (b : Block) : (s.setBuf b).buf = b := rfl
@[simp] theorem setBuf_buflen (b : Block) : (s.setBuf b).buflen = s.buflen := rfl
@[simp] theorem setBuf_len (b : Block) : (s.setBuf b).len = s.len := rfl
@[simp] theorem setBuf_phase (b : Block) : (s.setBuf b).phase = s.phase := rfl
@[simp] theorem setBuf_err (b : Block) : (s.setBuf b).err = s.err := rfl
@[simp] theorem setBuf_errcode (b : Block) : (s.setBuf b).errcode = s.errcode := rfl
@[simp] theorem setBuf_rdata (b : Block) : (s.setBuf b).rdata = s.rdata := rfl
@[simp] theorem setBuf_host (b : Block) : (s.setBuf b).host = s.host := rfl
@[simp] theorem setBuf_faultMark (b : Block) : (s.setBuf b).faultMark = s.faultMark := rfl
@[simp] theorem setBuf_draws (b : Block) : (s.setBuf b).draws = s.draws := rfl

@[simp] theorem setBuflen_chain (n : Fin 64) : (s.setBuflen n).chain = s.chain := rfl
@[simp] theorem setBuflen_buf (n : Fin 64) : (s.setBuflen n).buf = s.buf := rfl
@[simp] theorem setBuflen_buflen (n : Fin 64) : (s.setBuflen n).buflen = n := rfl
@[simp] theorem setBuflen_len (n : Fin 64) : (s.setBuflen n).len = s.len := rfl
@[simp] theorem setBuflen_phase (n : Fin 64) : (s.setBuflen n).phase = s.phase := rfl
@[simp] theorem setBuflen_err (n : Fin 64) : (s.setBuflen n).err = s.err := rfl
@[simp] theorem setBuflen_errcode (n : Fin 64) : (s.setBuflen n).errcode = s.errcode := rfl
@[simp] theorem setBuflen_rdata (n : Fin 64) : (s.setBuflen n).rdata = s.rdata := rfl
@[simp] theorem setBuflen_host (n : Fin 64) : (s.setBuflen n).host = s.host := rfl
@[simp] theorem setBuflen_faultMark (n : Fin 64) : (s.setBuflen n).faultMark = s.faultMark := rfl
@[simp] theorem setBuflen_draws (n : Fin 64) : (s.setBuflen n).draws = s.draws := rfl

@[simp] theorem setLen_chain (n : Dword) : (s.setLen n).chain = s.chain := rfl
@[simp] theorem setLen_buf (n : Dword) : (s.setLen n).buf = s.buf := rfl
@[simp] theorem setLen_buflen (n : Dword) : (s.setLen n).buflen = s.buflen := rfl
@[simp] theorem setLen_len (n : Dword) : (s.setLen n).len = n := rfl
@[simp] theorem setLen_phase (n : Dword) : (s.setLen n).phase = s.phase := rfl
@[simp] theorem setLen_err (n : Dword) : (s.setLen n).err = s.err := rfl
@[simp] theorem setLen_errcode (n : Dword) : (s.setLen n).errcode = s.errcode := rfl
@[simp] theorem setLen_rdata (n : Dword) : (s.setLen n).rdata = s.rdata := rfl
@[simp] theorem setLen_host (n : Dword) : (s.setLen n).host = s.host := rfl
@[simp] theorem setLen_faultMark (n : Dword) : (s.setLen n).faultMark = s.faultMark := rfl
@[simp] theorem setLen_draws (n : Dword) : (s.setLen n).draws = s.draws := rfl

@[simp] theorem setPhase_chain (p : Phase) : (s.setPhase p).chain = s.chain := rfl
@[simp] theorem setPhase_buf (p : Phase) : (s.setPhase p).buf = s.buf := rfl
@[simp] theorem setPhase_buflen (p : Phase) : (s.setPhase p).buflen = s.buflen := rfl
@[simp] theorem setPhase_len (p : Phase) : (s.setPhase p).len = s.len := rfl
@[simp] theorem setPhase_phase (p : Phase) : (s.setPhase p).phase = p := rfl
@[simp] theorem setPhase_err (p : Phase) : (s.setPhase p).err = s.err := rfl
@[simp] theorem setPhase_errcode (p : Phase) : (s.setPhase p).errcode = s.errcode := rfl
@[simp] theorem setPhase_rdata (p : Phase) : (s.setPhase p).rdata = s.rdata := rfl
@[simp] theorem setPhase_host (p : Phase) : (s.setPhase p).host = s.host := rfl
@[simp] theorem setPhase_faultMark (p : Phase) : (s.setPhase p).faultMark = s.faultMark := rfl
@[simp] theorem setPhase_draws (p : Phase) : (s.setPhase p).draws = s.draws := rfl

@[simp] theorem setErr_chain (e : Bool) (c : BitVec 3) : (s.setErr e c).chain = s.chain := rfl
@[simp] theorem setErr_buf (e : Bool) (c : BitVec 3) : (s.setErr e c).buf = s.buf := rfl
@[simp] theorem setErr_buflen (e : Bool) (c : BitVec 3) : (s.setErr e c).buflen = s.buflen := rfl
@[simp] theorem setErr_len (e : Bool) (c : BitVec 3) : (s.setErr e c).len = s.len := rfl
@[simp] theorem setErr_phase (e : Bool) (c : BitVec 3) : (s.setErr e c).phase = s.phase := rfl
@[simp] theorem setErr_err (e : Bool) (c : BitVec 3) : (s.setErr e c).err = e := rfl
@[simp] theorem setErr_errcode (e : Bool) (c : BitVec 3) : (s.setErr e c).errcode = c := rfl
@[simp] theorem setErr_rdata (e : Bool) (c : BitVec 3) : (s.setErr e c).rdata = s.rdata := rfl
@[simp] theorem setErr_host (e : Bool) (c : BitVec 3) : (s.setErr e c).host = s.host := rfl
@[simp] theorem setErr_faultMark (e : Bool) (c : BitVec 3) : (s.setErr e c).faultMark = s.faultMark := rfl
@[simp] theorem setErr_draws (e : Bool) (c : BitVec 3) : (s.setErr e c).draws = s.draws := rfl

@[simp] theorem setRdata_chain (r : Option Word) : (s.setRdata r).chain = s.chain := rfl
@[simp] theorem setRdata_buf (r : Option Word) : (s.setRdata r).buf = s.buf := rfl
@[simp] theorem setRdata_buflen (r : Option Word) : (s.setRdata r).buflen = s.buflen := rfl
@[simp] theorem setRdata_len (r : Option Word) : (s.setRdata r).len = s.len := rfl
@[simp] theorem setRdata_phase (r : Option Word) : (s.setRdata r).phase = s.phase := rfl
@[simp] theorem setRdata_err (r : Option Word) : (s.setRdata r).err = s.err := rfl
@[simp] theorem setRdata_errcode (r : Option Word) : (s.setRdata r).errcode = s.errcode := rfl
@[simp] theorem setRdata_rdata (r : Option Word) : (s.setRdata r).rdata = r := rfl
@[simp] theorem setRdata_host (r : Option Word) : (s.setRdata r).host = s.host := rfl
@[simp] theorem setRdata_faultMark (r : Option Word) : (s.setRdata r).faultMark = s.faultMark := rfl
@[simp] theorem setRdata_draws (r : Option Word) : (s.setRdata r).draws = s.draws := rfl

@[simp] theorem setHost_chain (q : List HostEvent) : (s.setHost q).chain = s.chain := rfl
@[simp] theorem setHost_buf (q : List HostEvent) : (s.setHost q).buf = s.buf := rfl
@[simp] theorem setHost_buflen (q : List HostEvent) : (s.setHost q).buflen = s.buflen := rfl
@[simp] theorem setHost_len (q : List HostEvent) : (s.setHost q).len = s.len := rfl
@[simp] theorem setHost_phase (q : List HostEvent) : (s.setHost q).phase = s.phase := rfl
@[simp] theorem setHost_err (q : List HostEvent) : (s.setHost q).err = s.err := rfl
@[simp] theorem setHost_errcode (q : List HostEvent) : (s.setHost q).errcode = s.errcode := rfl
@[simp] theorem setHost_rdata (q : List HostEvent) : (s.setHost q).rdata = s.rdata := rfl
@[simp] theorem setHost_host (q : List HostEvent) : (s.setHost q).host = q := rfl
@[simp] theorem setHost_faultMark (q : List HostEvent) : (s.setHost q).faultMark = s.faultMark := rfl
@[simp] theorem setHost_draws (q : List HostEvent) : (s.setHost q).draws = s.draws := rfl

@[simp] theorem setFaultMark_chain (m : Bool) : (s.setFaultMark m).chain = s.chain := rfl
@[simp] theorem setFaultMark_buf (m : Bool) : (s.setFaultMark m).buf = s.buf := rfl
@[simp] theorem setFaultMark_buflen (m : Bool) : (s.setFaultMark m).buflen = s.buflen := rfl
@[simp] theorem setFaultMark_len (m : Bool) : (s.setFaultMark m).len = s.len := rfl
@[simp] theorem setFaultMark_phase (m : Bool) : (s.setFaultMark m).phase = s.phase := rfl
@[simp] theorem setFaultMark_err (m : Bool) : (s.setFaultMark m).err = s.err := rfl
@[simp] theorem setFaultMark_errcode (m : Bool) : (s.setFaultMark m).errcode = s.errcode := rfl
@[simp] theorem setFaultMark_rdata (m : Bool) : (s.setFaultMark m).rdata = s.rdata := rfl
@[simp] theorem setFaultMark_host (m : Bool) : (s.setFaultMark m).host = s.host := rfl
@[simp] theorem setFaultMark_faultMark (m : Bool) : (s.setFaultMark m).faultMark = m := rfl
@[simp] theorem setFaultMark_draws (m : Bool) : (s.setFaultMark m).draws = s.draws := rfl

@[simp] theorem atReset_buflen (n : Nat) : (atReset n).buflen = 0 := rfl
@[simp] theorem atReset_len (n : Nat) : (atReset n).len = 0 := rfl
@[simp] theorem atReset_phase (n : Nat) : (atReset n).phase = .idle := rfl
@[simp] theorem atReset_err (n : Nat) : (atReset n).err = false := rfl
@[simp] theorem atReset_errcode (n : Nat) : (atReset n).errcode = 0 := rfl
@[simp] theorem atReset_rdata (n : Nat) : (atReset n).rdata = none := rfl
@[simp] theorem atReset_host (n : Nat) : (atReset n).host = [] := rfl
@[simp] theorem atReset_faultMark (n : Nat) : (atReset n).faultMark = false := rfl
@[simp] theorem atReset_draws (n : Nat) : (atReset n).draws = n := rfl

/-- Two states with equal fields are equal. -/
theorem ext_fields {s t : State} (h1 : s.chain = t.chain) (h2 : s.buf = t.buf) (h3 : s.buflen = t.buflen) (h4 : s.len = t.len)
    (h5 : s.phase = t.phase) (h6 : s.err = t.err) (h7 : s.errcode = t.errcode) (h8 : s.rdata = t.rdata) (h9 : s.host = t.host)
    (h10 : s.faultMark = t.faultMark) (h11 : s.draws = t.draws) : s = t := by
  cases s; cases t; simp_all

end Sys2Proof.Machine.State
end

