-- ==== Sys2Proof/Laws/Ops.lean ====
section
/-! SUPPORT. One group of lemmas per shared operation: what each writes and what it leaves. -/

namespace Sys2Proof.Machine

variable (s : State)

/-! ### processBlock writes the chain only -/

@[simp] theorem processBlock_chain : (processBlock s).chain = compress s.chain (schedule s.buf) := rfl
@[simp] theorem processBlock_buf : (processBlock s).buf = s.buf := rfl
@[simp] theorem processBlock_buflen : (processBlock s).buflen = s.buflen := rfl
@[simp] theorem processBlock_len : (processBlock s).len = s.len := rfl
@[simp] theorem processBlock_phase : (processBlock s).phase = s.phase := rfl
@[simp] theorem processBlock_err : (processBlock s).err = s.err := rfl
@[simp] theorem processBlock_errcode : (processBlock s).errcode = s.errcode := rfl
@[simp] theorem processBlock_rdata : (processBlock s).rdata = s.rdata := rfl
@[simp] theorem processBlock_host : (processBlock s).host = s.host := rfl
@[simp] theorem processBlock_faultMark : (processBlock s).faultMark = s.faultMark := rfl
@[simp] theorem processBlock_draws : (processBlock s).draws = s.draws := rfl

/-! ### raiseError writes ERR, ERRCODE and the fault mark only -/

theorem raiseError_eq (e : ProtocolError) : raiseError e s =
    ((s.setFaultMark true).setErr true (if s.err then s.errcode else e.code)) := by
  cases h : s.err <;> simp [raiseError, h, State.setErr, State.setFaultMark]

@[simp] theorem raiseError_chain (e : ProtocolError) : (raiseError e s).chain = s.chain := by rw [raiseError_eq]; rfl
@[simp] theorem raiseError_buf (e : ProtocolError) : (raiseError e s).buf = s.buf := by rw [raiseError_eq]; rfl
@[simp] theorem raiseError_buflen (e : ProtocolError) : (raiseError e s).buflen = s.buflen := by rw [raiseError_eq]; rfl
@[simp] theorem raiseError_len (e : ProtocolError) : (raiseError e s).len = s.len := by rw [raiseError_eq]; rfl
@[simp] theorem raiseError_phase (e : ProtocolError) : (raiseError e s).phase = s.phase := by rw [raiseError_eq]; rfl
@[simp] theorem raiseError_err (e : ProtocolError) : (raiseError e s).err = true := by rw [raiseError_eq]; rfl
@[simp] theorem raiseError_errcode (e : ProtocolError) : (raiseError e s).errcode = if s.err then s.errcode else e.code := by rw [raiseError_eq]; rfl
@[simp] theorem raiseError_rdata (e : ProtocolError) : (raiseError e s).rdata = s.rdata := by rw [raiseError_eq]; rfl
@[simp] theorem raiseError_host (e : ProtocolError) : (raiseError e s).host = s.host := by rw [raiseError_eq]; rfl
@[simp] theorem raiseError_faultMark (e : ProtocolError) : (raiseError e s).faultMark = true := by rw [raiseError_eq]; rfl
@[simp] theorem raiseError_draws (e : ProtocolError) : (raiseError e s).draws = s.draws := by rw [raiseError_eq]; rfl

/-! ### clearError writes ERR and ERRCODE only -/

@[simp] theorem clearError_chain : (clearError s).chain = s.chain := rfl
@[simp] theorem clearError_buf : (clearError s).buf = s.buf := rfl
@[simp] theorem clearError_buflen : (clearError s).buflen = s.buflen := rfl
@[simp] theorem clearError_len : (clearError s).len = s.len := rfl
@[simp] theorem clearError_phase : (clearError s).phase = s.phase := rfl
@[simp] theorem clearError_err : (clearError s).err = false := rfl
@[simp] theorem clearError_errcode : (clearError s).errcode = 0 := rfl
@[simp] theorem clearError_rdata : (clearError s).rdata = s.rdata := rfl
@[simp] theorem clearError_host : (clearError s).host = s.host := rfl
@[simp] theorem clearError_faultMark : (clearError s).faultMark = s.faultMark := rfl
@[simp] theorem clearError_draws : (clearError s).draws = s.draws := rfl

/-! ### pushByte writes the chain, BUF, BUFLEN and LEN only -/

variable (b : Byte)

@[simp] theorem pushByte_buf : (pushByte b s).buf = s.buf.set s.buflen b := by
  unfold pushByte; dsimp only; split <;> rfl
@[simp] theorem pushByte_len : (pushByte b s).len = s.len + 1 := by
  unfold pushByte; dsimp only; split <;> rfl
@[simp] theorem pushByte_buflen : (pushByte b s).buflen = s.buflen + 1 := by
  unfold pushByte; dsimp only; split
  · rename_i h; apply Fin.ext; simp [Fin.val_add, h]
  · rfl
@[simp] theorem pushByte_chain : (pushByte b s).chain =
    if s.buflen.val = 63 then compress s.chain (schedule (s.buf.set s.buflen b)) else s.chain := by
  unfold pushByte; dsimp only; split <;> rfl
@[simp] theorem pushByte_phase : (pushByte b s).phase = s.phase := by unfold pushByte; dsimp only; split <;> rfl
@[simp] theorem pushByte_err : (pushByte b s).err = s.err := by unfold pushByte; dsimp only; split <;> rfl
@[simp] theorem pushByte_errcode : (pushByte b s).errcode = s.errcode := by unfold pushByte; dsimp only; split <;> rfl
@[simp] theorem pushByte_rdata : (pushByte b s).rdata = s.rdata := by unfold pushByte; dsimp only; split <;> rfl
@[simp] theorem pushByte_host : (pushByte b s).host = s.host := by unfold pushByte; dsimp only; split <;> rfl
@[simp] theorem pushByte_faultMark : (pushByte b s).faultMark = s.faultMark := by unfold pushByte; dsimp only; split <;> rfl
@[simp] theorem pushByte_draws : (pushByte b s).draws = s.draws := by unfold pushByte; dsimp only; split <;> rfl

/-! ### pushBytes writes no more than pushByte -/

@[simp] theorem pushBytes_nil : pushBytes [] s = s := rfl
@[simp] theorem pushBytes_cons (bs : List Byte) : pushBytes (b :: bs) s = pushBytes bs (pushByte b s) := rfl

@[simp] theorem pushBytes_phase (bs : List Byte) : (pushBytes bs s).phase = s.phase := by
  induction bs generalizing s with
  | nil => rfl
  | cons b bs ih => rw [pushBytes_cons, ih, pushByte_phase]
@[simp] theorem pushBytes_err (bs : List Byte) : (pushBytes bs s).err = s.err := by
  induction bs generalizing s with
  | nil => rfl
  | cons b bs ih => rw [pushBytes_cons, ih, pushByte_err]
@[simp] theorem pushBytes_errcode (bs : List Byte) : (pushBytes bs s).errcode = s.errcode := by
  induction bs generalizing s with
  | nil => rfl
  | cons b bs ih => rw [pushBytes_cons, ih, pushByte_errcode]
@[simp] theorem pushBytes_rdata (bs : List Byte) : (pushBytes bs s).rdata = s.rdata := by
  induction bs generalizing s with
  | nil => rfl
  | cons b bs ih => rw [pushBytes_cons, ih, pushByte_rdata]
@[simp] theorem pushBytes_host (bs : List Byte) : (pushBytes bs s).host = s.host := by
  induction bs generalizing s with
  | nil => rfl
  | cons b bs ih => rw [pushBytes_cons, ih, pushByte_host]
@[simp] theorem pushBytes_faultMark (bs : List Byte) : (pushBytes bs s).faultMark = s.faultMark := by
  induction bs generalizing s with
  | nil => rfl
  | cons b bs ih => rw [pushBytes_cons, ih, pushByte_faultMark]
@[simp] theorem pushBytes_draws (bs : List Byte) : (pushBytes bs s).draws = s.draws := by
  induction bs generalizing s with
  | nil => rfl
  | cons b bs ih => rw [pushBytes_cons, ih, pushByte_draws]
theorem pushBytes_append (xs ys : List Byte) : pushBytes (xs ++ ys) s = pushBytes ys (pushBytes xs s) := by
  induction xs generalizing s with
  | nil => rfl
  | cons x xs ih => exact ih (pushByte x s)

/-! ### padFinal writes the chain and BUF only -/

/-- PadFinal with room for the length field. -/
theorem padFinal_short (h : s.buflen.val ≤ 55) :
    padFinal s = (s.setBuf (oneBlock s)).setChain (compress s.chain (schedule (oneBlock s))) := by
  unfold padFinal finalBlocks
  rw [if_pos h]
  rfl

/-- PadFinal without room for it. -/
theorem padFinal_long (h : 56 ≤ s.buflen.val) :
    padFinal s = (s.setBuf (secondBlock s)).setChain
      (compress (compress s.chain (schedule (firstBlock s))) (schedule (secondBlock s))) := by
  unfold padFinal finalBlocks
  rw [if_neg (by omega)]
  rfl

/-- A fold of ProcessBlock over blocks, each written to BUF first, writes the chain and BUF only. -/
theorem processBlocks_eq (bs : List Block) : ∃ b : Block, bs.foldl (fun u b => processBlock (u.setBuf b)) s =
    (s.setBuf b).setChain (bs.foldl (fun h b => compress h (schedule b)) s.chain) := by
  induction bs generalizing s with
  | nil => exact ⟨s.buf, rfl⟩
  | cons b bs ih =>
    obtain ⟨c, hc⟩ := ih (processBlock (s.setBuf b))
    exact ⟨c, hc⟩

/-- PadFinal runs Compress on its blocks, in order. -/
theorem padFinal_chain_eq : (padFinal s).chain = (finalBlocks s).foldl (fun h b => compress h (schedule b)) s.chain := by
  obtain ⟨b, h⟩ := processBlocks_eq s (finalBlocks s)
  rw [padFinal, h, State.setChain_chain]

@[simp] theorem padFinal_buflen : (padFinal s).buflen = s.buflen := by
  obtain ⟨b, h⟩ := processBlocks_eq s (finalBlocks s)
  rw [padFinal, h, State.setChain_buflen, State.setBuf_buflen]
@[simp] theorem padFinal_len : (padFinal s).len = s.len := by
  obtain ⟨b, h⟩ := processBlocks_eq s (finalBlocks s)
  rw [padFinal, h, State.setChain_len, State.setBuf_len]
@[simp] theorem padFinal_phase : (padFinal s).phase = s.phase := by
  obtain ⟨b, h⟩ := processBlocks_eq s (finalBlocks s)
  rw [padFinal, h, State.setChain_phase, State.setBuf_phase]
@[simp] theorem padFinal_err : (padFinal s).err = s.err := by
  obtain ⟨b, h⟩ := processBlocks_eq s (finalBlocks s)
  rw [padFinal, h, State.setChain_err, State.setBuf_err]
@[simp] theorem padFinal_errcode : (padFinal s).errcode = s.errcode := by
  obtain ⟨b, h⟩ := processBlocks_eq s (finalBlocks s)
  rw [padFinal, h, State.setChain_errcode, State.setBuf_errcode]
@[simp] theorem padFinal_rdata : (padFinal s).rdata = s.rdata := by
  obtain ⟨b, h⟩ := processBlocks_eq s (finalBlocks s)
  rw [padFinal, h, State.setChain_rdata, State.setBuf_rdata]
@[simp] theorem padFinal_host : (padFinal s).host = s.host := by
  obtain ⟨b, h⟩ := processBlocks_eq s (finalBlocks s)
  rw [padFinal, h, State.setChain_host, State.setBuf_host]
@[simp] theorem padFinal_faultMark : (padFinal s).faultMark = s.faultMark := by
  obtain ⟨b, h⟩ := processBlocks_eq s (finalBlocks s)
  rw [padFinal, h, State.setChain_faultMark, State.setBuf_faultMark]
@[simp] theorem padFinal_draws : (padFinal s).draws = s.draws := by
  obtain ⟨b, h⟩ := processBlocks_eq s (finalBlocks s)
  rw [padFinal, h, State.setChain_draws, State.setBuf_draws]

theorem oneBlock_get (i : Fin 64) : (oneBlock s)[i] =
    if 56 ≤ i.val then (bytesBe64 (s.len * 8)).getD (i.val - 56) 0#8
    else if s.buflen.val < i.val then 0#8 else if i = s.buflen then 0x80#8 else s.buf[i] := by
  rw [oneBlock, putLength_get, zeroFill_get, block_set_get]
  by_cases c : 56 ≤ i.val
  · rw [if_pos c, if_pos c]
  · rw [if_neg c, if_neg c]
    by_cases d : s.buflen.val < i.val
    · rw [if_pos (by omega), if_pos d]
    · rw [if_neg (by omega), if_neg d]

theorem firstBlock_get (i : Fin 64) : (firstBlock s)[i] =
    if s.buflen.val < i.val then 0#8 else if i = s.buflen then 0x80#8 else s.buf[i] := by
  have := i.isLt
  rw [firstBlock, zeroFill_get, block_set_get]
  by_cases d : s.buflen.val < i.val
  · rw [if_pos (by omega), if_pos d]
  · rw [if_neg (by omega), if_neg d]

theorem secondBlock_get (i : Fin 64) : (secondBlock s)[i] =
    if 56 ≤ i.val then (bytesBe64 (s.len * 8)).getD (i.val - 56) 0#8 else 0#8 := by
  rw [secondBlock, putLength_get, zeroFill_get]
  by_cases c : 56 ≤ i.val
  · rw [if_pos c, if_pos c]
  · rw [if_neg c, if_neg c, if_pos (by omega)]

/-- PadFinal reads H, BUF, BUFLEN and LEN only: states that agree on them get the same H and BUF. -/
theorem padFinal_congr {s t : State} (h1 : s.chain = t.chain) (h2 : s.buf = t.buf) (h3 : s.buflen = t.buflen)
    (h4 : s.len = t.len) : (padFinal s).chain = (padFinal t).chain ∧ (padFinal s).buf = (padFinal t).buf := by
  have k1 : oneBlock s = oneBlock t := by simp only [oneBlock, h2, h3, h4]
  have k2 : firstBlock s = firstBlock t := by simp only [firstBlock, h2, h3]
  have k3 : secondBlock s = secondBlock t := by simp only [secondBlock, k2, h4]
  by_cases c : s.buflen.val ≤ 55
  · rw [padFinal_short s c, padFinal_short t (h3 ▸ c), State.setChain_chain, State.setChain_chain, State.setChain_buf,
      State.setChain_buf, State.setBuf_buf, State.setBuf_buf, k1, h1]
    exact ⟨rfl, rfl⟩
  · rw [padFinal_long s (by omega), padFinal_long t (by rw [← h3]; omega), State.setChain_chain, State.setChain_chain,
      State.setChain_buf, State.setChain_buf, State.setBuf_buf, State.setBuf_buf, k2, k3, h1]
    exact ⟨rfl, rfl⟩

/-! ### resetCore -/

@[simp] theorem resetCore_buflen : (resetCore s).buflen = 0 := rfl
@[simp] theorem resetCore_len : (resetCore s).len = 0 := rfl
@[simp] theorem resetCore_phase : (resetCore s).phase = .idle := rfl
@[simp] theorem resetCore_err : (resetCore s).err = false := rfl
@[simp] theorem resetCore_errcode : (resetCore s).errcode = 0 := rfl
@[simp] theorem resetCore_rdata : (resetCore s).rdata = none := rfl
@[simp] theorem resetCore_host : (resetCore s).host = s.host := rfl
@[simp] theorem resetCore_faultMark : (resetCore s).faultMark = s.faultMark := rfl
@[simp] theorem resetCore_draws : (resetCore s).draws = s.draws + 1 := rfl

end Sys2Proof.Machine
end

