-- ==== Sys2Proof/Laws/BusRead.lean ====
section
/-! SUPPORT. What a register read answers at every address: with `digestReady_iff` these replace unfolding `busRead`. -/

namespace Sys2Proof.Machine

theorem addr_eq {a : Addr} {n : Nat} (h : a.toNat = n) : a = BitVec.ofNat 8 n := by subst h; simp

/-- Where no register can be read and none can be written there is none. -/
theorem regAt_none (a : Addr) (h : a.toNat ∉ readableAddrs) (h0 : a.toNat ≠ 0) (h1 : a.toNat ≠ 12) : regAt a = none := by
  revert a
  decide +kernel

variable (s : State)

theorem busRead_align {a : Addr} (h : a.toNat % 4 ≠ 0) : busRead a s = .error .eAlign := by
  unfold busRead
  rw [if_pos ((not_aligned_iff a).2 h)]

theorem busRead_addr {a : Addr} (h : a.toNat % 4 = 0) (hn : a.toNat ∉ readableAddrs) : busRead a s = .error .eAddr := by
  unfold busRead
  rw [if_neg (by rw [(aligned_iff a).2 h]; simp)]
  by_cases h0 : a.toNat = 0
  · rw [addr_eq h0]; rfl
  by_cases h1 : a.toNat = 12
  · rw [addr_eq h1]; rfl
  rw [regAt_none a hn h0 h1]

theorem busRead_status : busRead 0x04 s = .ok (statusWord s) := rfl
theorem busRead_errcode : busRead 0x08 s = .ok (errcodeWord s) := rfl
theorem busRead_lenLo : busRead 0x10 s = .ok (s.len.extractLsb' 0 32) := rfl
theorem busRead_lenHi : busRead 0x14 s = .ok (s.len.extractLsb' 32 32) := rfl

theorem busRead_digest (j : Fin 5) : busRead (BitVec.ofNat 8 (0x20 + 4 * j.val)) s =
    if digestReady s then .ok s.chain[j] else .error .ePhase := by
  fin_cases j <;> rfl

theorem busRead_hex (j : Fin 10) : busRead (BitVec.ofNat 8 (0x40 + 4 * j.val)) s =
    if digestReady s then .ok (hexWord s.chain j) else .error .ePhase := by
  fin_cases j <;> rfl

/-- The read data is not read back. -/
theorem busRead_setRdata (a : Addr) (r : Option Word) : busRead a (s.setRdata r) = busRead a s := rfl

end Sys2Proof.Machine
end

