-- ==== Sys2Proof/Laws/PerInstr.lean ====
section
/-! SUPPORT. The per-instruction families of LAWS.json: facts about each operation as syntax. -/

namespace Sys2Proof.Laws.FitsItsRow

/-- The word of the operation fits the row of the opcode map with its mnemonic (30_encoding R51). -/
def Statement (i : Instr) : Prop :=
  ∃ r ∈ opcodeTable, r.mnemonic = mnemonicOf i ∧ r.matchesWord (encodeWord i) = true

theorem nop : Statement .nop := by unfold Statement; decide
theorem init : Statement .init := by unfold Statement; decide
theorem pushb (b : Byte) : Statement (.pushb b) :=
  ⟨⟨"PUSHB", 0x1FFFFFF00FF#41, 0x10000000002#41⟩, by decide, rfl, beq_iff_eq.2 (by
    show (1#1 ++ 0#8 ++ (0#16 ++ b ++ 2#8)) &&& (1#1 ++ 0xFF#8 ++ (0xFFFF#16 ++ 0#8 ++ 0xFF#8)) =
      1#1 ++ 0#8 ++ (0#16 ++ 0#8 ++ 2#8)
    simp only [BitVec.and_append, BitVec.and_zero]; rfl)⟩
theorem final : Statement .final := by unfold Statement; decide
theorem clrerr : Statement .clrerr := by unfold Statement; decide
theorem pushw (w : Word) : Statement (.pushw w) :=
  ⟨⟨"PUSHW", 0x1FF00000000#41, 0x10C00000000#41⟩, by decide, rfl, beq_iff_eq.2 (by
    show (1#1 ++ 12#8 ++ w) &&& (1#1 ++ 0xFF#8 ++ 0#32) = 1#1 ++ 12#8 ++ 0#32
    simp only [BitVec.and_append, BitVec.and_zero]; rfl)⟩
theorem rd (a : Addr) : Statement (.rd a) :=
  ⟨⟨"RD", 0x10000000000#41, 0x00000000000#41⟩, by decide, rfl, beq_iff_eq.2 (by
    show (0#1 ++ a ++ 0#32) &&& (1#1 ++ 0#8 ++ 0#32) = 0#1 ++ 0#8 ++ 0#32
    simp only [BitVec.and_append, BitVec.and_zero]; rfl)⟩

end Sys2Proof.Laws.FitsItsRow
end

