-- ==== Sys2Proof/Laws/Step.lean ====
section
/-! SUPPORT. What a decoded transaction is, what an operation can do, and what a step can do: one inversion lemma each. -/

namespace Sys2Proof.Machine

theorem absorbing_iff (s : State) : absorbing s = true ↔ s.phase = .absorb := by
  cases h : s.phase <;> simp [absorbing, h]

theorem digestReady_iff (s : State) : digestReady s = true ↔ s.phase = .done := by
  cases h : s.phase <;> simp [digestReady, h]

theorem execPushb_absorb {s : State} (b : Byte) (h : s.phase = .absorb) : execPushb b s = .next (pushByte b s) := by
  rw [execPushb, if_pos ((absorbing_iff s).2 h)]

theorem execPushb_rejects {s : State} (b : Byte) (h : s.phase ≠ .absorb) :
    execPushb b s = .next (raiseError .ePhase s) := by
  rw [execPushb, if_neg (mt (absorbing_iff s).1 h)]

theorem execPushw_absorb {s : State} (w : Word) (h : s.phase = .absorb) :
    execPushw w s = .next (pushBytes (imm32Bytes w) s) := by
  rw [execPushw, if_pos ((absorbing_iff s).2 h)]

theorem execPushw_rejects {s : State} (w : Word) (h : s.phase ≠ .absorb) :
    execPushw w s = .next (raiseError .ePhase s) := by
  rw [execPushw, if_neg (mt (absorbing_iff s).1 h)]

theorem execFinal_absorb {s : State} (h : s.phase = .absorb) :
    execFinal s = .next (((padFinal s).setBuflen 0).setPhase .done) := by
  rw [execFinal, if_pos ((absorbing_iff s).2 h)]

theorem execFinal_rejects {s : State} (h : s.phase ≠ .absorb) : execFinal s = .next (raiseError .ePhase s) := by
  rw [execFinal, if_neg (mt (absorbing_iff s).1 h)]

theorem execRd_ok {s : State} {a : Addr} {v : Word} (h : busRead a s = .ok v) :
    execRd a s = .next (s.setRdata (some v)) := by
  rw [execRd, h]

theorem execRd_error {s : State} {a : Addr} {e : ProtocolError} (h : busRead a s = .error e) :
    execRd a s = .next ((raiseError e s).setRdata (some 0#32)) := by
  rw [execRd, h]

/-- What an operation can do: its own effect, or a raise that leaves the rest (with 0 on `rdata` for a read). -/
theorem exec_cases {i : Instr} {s t : State} (h : exec i s = .next t) :
    (i = .nop ∧ t = s) ∨
    (i = .init ∧ t = (((s.setChain iv).setBuflen 0).setLen 0).setPhase .absorb) ∨
    (∃ b, i = .pushb b ∧ s.phase = .absorb ∧ t = pushByte b s) ∨
    (i = .final ∧ s.phase = .absorb ∧ t = ((padFinal s).setBuflen 0).setPhase .done) ∨
    (i = .clrerr ∧ t = clearError s) ∨
    (∃ w, i = .pushw w ∧ s.phase = .absorb ∧ t = pushBytes (imm32Bytes w) s) ∨
    (∃ a v, i = .rd a ∧ busRead a s = .ok v ∧ t = s.setRdata (some v)) ∨
    (∃ a e, i = .rd a ∧ busRead a s = .error e ∧ t = (raiseError e s).setRdata (some 0#32)) ∨
    (((∃ b, i = .pushb b) ∨ i = .final ∨ ∃ w, i = .pushw w) ∧ s.phase ≠ .absorb ∧ t = raiseError .ePhase s) := by
  cases i with
  | nop => cases h; simp
  | init => cases h; simp
  | clrerr => cases h; simp
  | pushb b =>
    by_cases hp : s.phase = .absorb
    · cases (execPushb_absorb b hp).symm.trans h; simp [hp]
    · cases (execPushb_rejects b hp).symm.trans h; simp [hp]
  | final =>
    by_cases hp : s.phase = .absorb
    · cases (execFinal_absorb hp).symm.trans h; simp [hp]
    · cases (execFinal_rejects hp).symm.trans h; simp [hp]
  | pushw w =>
    by_cases hp : s.phase = .absorb
    · cases (execPushw_absorb w hp).symm.trans h; simp [hp]
    · cases (execPushw_rejects w hp).symm.trans h; simp [hp]
  | rd a =>
    cases hb : busRead a s with
    | ok v => cases (execRd_ok hb).symm.trans h; simp [hb]
    | error e => cases (execRd_error hb).symm.trans h; simp [hb]

/-- No operation touches what the host presents or the count of draws. -/
theorem exec_host_draws {i : Instr} {s t : State} (h : exec i s = .next t) : t.host = s.host ∧ t.draws = s.draws := by
  rcases exec_cases h with ⟨_, rfl⟩ | ⟨_, rfl⟩ | ⟨_, _, _, rfl⟩ | ⟨_, _, rfl⟩ | ⟨_, rfl⟩ | ⟨_, _, _, rfl⟩ |
    ⟨_, _, _, _, rfl⟩ | ⟨_, _, _, _, rfl⟩ | ⟨_, _, rfl⟩ <;> simp

/-- What a transaction can do: run the operation it decodes to, or record the error of an illegal one. -/
theorem transact_cases {t : Transaction} {s u : State} (h : transact t s = .next u) :
    (∃ i, decode t = .ok i ∧ exec i (s.setRdata none) = .next u) ∨
    (∃ e, decode t = .error e ∧ u = raiseError e (s.setRdata none)) := by
  unfold transact at h
  cases hd : decode t with
  | ok i => simp only [hd] at h; exact .inl ⟨i, rfl, h⟩
  | error e => simp only [hd] at h; cases h; exact .inr ⟨e, rfl, rfl⟩

theorem transact_ok {t : Transaction} {i : Instr} (s : State) (h : decode t = .ok i) :
    transact t s = exec i (s.setRdata none) := by simp only [transact, h]

theorem transact_error {t : Transaction} {e : ProtocolError} (s : State) (h : decode t = .error e) :
    transact t s = .next (raiseError e (s.setRdata none)) := by simp only [transact, h]

/-- What a step can do: nothing where nothing is presented, a reset, or a transaction. -/
theorem step_cases {s u : State} (h : step s = .next u) :
    (s.host = [] ∧ u = s) ∨
    (∃ rest, s.host = .reset :: rest ∧ u = resetCore (s.setHost rest)) ∨
    (∃ t rest, s.host = .transaction t :: rest ∧ transact t (s.setHost rest) = .next u) := by
  unfold step at h
  match hq : s.host with
  | [] => simp only [hq] at h; cases h; exact .inl ⟨rfl, rfl⟩
  | .reset :: rest => simp only [hq] at h; cases h; exact .inr (.inl ⟨rest, rfl, rfl⟩)
  | .transaction t :: rest => simp only [hq] at h; exact .inr (.inr ⟨t, rest, rfl, h⟩)

theorem step_empty {s : State} (h : s.host = []) : step s = .next s := by simp only [step, h]

theorem step_reset {s : State} {rest : List HostEvent} (h : s.host = .reset :: rest) :
    step s = .next (resetCore (s.setHost rest)) := by simp only [step, h, perform]

theorem step_transaction {s : State} {t : Transaction} {rest : List HostEvent} (h : s.host = .transaction t :: rest) :
    step s = transact t (s.setHost rest) := by simp only [step, h, perform]

end Sys2Proof.Machine
end

