-- ==== Sys2Proof/Tests/Slice0.lean ====
section
/-! SUPPORT. The model's own tests, each on one step or one function, with values from spec/ (95_test_vectors and the
examples of the rules), and for each statement with hypotheses a theorem `witness_<statement>` that meets them. -/

namespace Sys2Proof.Tests
open Sys2Proof Sys2Proof.Machine

/-- A small state: H = IV, BUF all zero, no error, nothing presented. -/
def stateOf (p : Phase) (n : Fin 64) (l : Dword) : State where
  chain     := iv
  buf       := tabulate fun _ => 0
  buflen    := n
  len       := l
  phase     := p
  err       := false
  errcode   := 0
  rdata     := none
  host      := []
  faultMark := false
  draws     := 0

/-- ABSORB after the bytes "abc" (43_accumulator R80's example). -/
def abcState : State := (stateOf .absorb 3 3).setBuf (blockOf [0x61, 0x62, 0x63])

/-- The state after a step that answers next, and the given state otherwise. -/
def nextOr (s : State) : Host.Outcome State Fault Refusal → State
  | .next t    => t
  | .fault _   => s
  | .refused _ => s

/-- The state after the operation. -/
def after (i : Instr) (s : State) : State := nextOr s (exec i s)

/-- The state after one step from reset on a word. -/
def first (w : Nat) : State := nextOr State.reset (step (State.reset.withFetchWord 48 w))

/-! ## Well-formedness: one ill-formed term for each check -/

theorem test_wellFormed_instr : [Instr.nop, .init, .pushb 0xFF, .final, .clrerr, .pushw 0xFFFFFFFF, .rd 0x01].all
    Instr.wellFormed = true := by decide
theorem test_illFormed_misaligned : (Transaction.mk true 0x0D 0).wellFormed = false ∧ aligned 0x0D = false := by decide
theorem test_illFormed_readOnly : (Transaction.mk true 0x04 0).wellFormed = false ∧
    (Transaction.mk true 0x04 0).writable = false := by decide
theorem test_illFormed_opcode : (Transaction.mk true 0x00 0x05).wellFormed = false ∧
    (Transaction.mk true 0x00 0x05).opcodeKnown = false := by decide
theorem test_illFormed_zeroField : (Transaction.mk true 0x00 0x00010002).wellFormed = false ∧
    (Transaction.mk true 0x00 0x00010002).zeroFieldClear = false := by decide
theorem test_illFormed_imm8 : (Transaction.mk true 0x00 0x00000101).wellFormed = false ∧
    (Transaction.mk true 0x00 0x00000101).imm8Clear = false := by decide
theorem test_not_canonical : (Transaction.mk false 0x04 1).canonical = false ∧
    (Transaction.mk false 0x04 1).wellFormed = true := by decide

/-! ## Decoding: one word of each row, written out bit by bit as we, addr, then the fields of wdata (30_encoding R48 to
R51) -/

theorem test_decode_nop : decodeWord 0b1_00000000_0000000000000000_00000000_00000000#41 = .ok .nop := by decide
theorem test_decode_init : decodeWord 0b1_00000000_0000000000000000_00000000_00000001#41 = .ok .init := by decide
theorem test_decode_pushb : decodeWord 0b1_00000000_0000000000000000_01100001_00000010#41 = .ok (.pushb 0x61) := by decide
theorem test_decode_final : decodeWord 0b1_00000000_0000000000000000_00000000_00000011#41 = .ok .final := by decide
theorem test_decode_clrerr : decodeWord 0b1_00000000_0000000000000000_00000000_00000100#41 = .ok .clrerr := by decide
theorem test_decode_pushw :
    decodeWord 0b1_00001100_01100001_01100010_01100011_01100100#41 = .ok (.pushw 0x61626364) := by decide
theorem test_decode_rd : decodeWord 0b0_01000100_10101010_00000000_00000000_00000001#41 = .ok (.rd 0x44) := by decide
theorem test_decode_reserved : decodeWord 0b1_00000000_0000000000000000_00000000_00000101#41 = .error .eOpcode ∧
    decodeWord 0b1_00000000_0000000000000001_00000000_00000101#41 = .error .eOpcode ∧
    decodeWord 0b1_00000000_0000000000000001_00000000_00000010#41 = .error .eRsvd ∧
    decodeWord 0b1_00000000_0000000000000000_00000001_00000011#41 = .error .eRsvd ∧
    decodeWord 0b1_00001101_00000000_00000000_00000000_00000000#41 = .error .eAlign ∧
    decodeWord 0b1_00000100_00000000_00000000_00000000_00000000#41 = .error .eAddr := by decide
theorem test_table_word : decodeTableWord 48 0x10000006102 = some (.pushb 0x61) ∧
    decodeTableWord 48 0x10000000007 = none ∧ decodeTableWord 48 0x20000000000 = none := by decide

/-- 30_encoding R55's expansions. -/
theorem test_pseudo : hashOps [0x61, 0x62] = [.init, .pushb 0x61, .pushb 0x62, .final, .rd 0x20, .rd 0x24, .rd 0x28, .rd 0x2C,
    .rd 0x30] ∧ pushsOps "abc" = [.pushb 0x61, .pushb 0x62, .pushb 0x63] ∧
    rdHexOps.getLast? = some (.rd 0x64) := by decide

/-! ## Every row runs as the first operation after reset (10_state R33, 43_accumulator R77 to R83) -/

theorem test_first_nop : (first 0x10000000000).phase = .idle ∧ (first 0x10000000000).err = false := by decide
theorem test_first_init : (first 0x10000000001).phase = .absorb ∧ (first 0x10000000001).chain = iv := by decide
theorem test_first_pushb : (first 0x10000006102).errcode = 3 ∧ (first 0x10000006102).len = 0 := by decide
theorem test_first_final : (first 0x10000000003).errcode = 3 ∧ (first 0x10000000003).phase = .idle := by decide
theorem test_first_clrerr : (first 0x10000000004).err = false ∧ (first 0x10000000004).phase = .idle := by decide
theorem test_first_pushw : (first 0x10C61626364).errcode = 3 ∧ (first 0x10C61626364).len = 0 := by decide
theorem test_first_rd : (first 0x00400000000).rdata = some 0 ∧ (first 0x02000000000).errcode = 3 ∧
    (first 0x02000000000).rdata = some 0 := by decide

/-! ## One step of each operation, on the examples of its rule -/

/-- R78. -/
theorem test_init_status : statusWord (after .init (stateOf .idle 0 0)) = 0x00000001#32 := by decide
/-- R79's example. -/
theorem test_pushb_first : let t := after (.pushb 0x61) (stateOf .absorb 0 0)
    t.buf[0] = 0x61#8 ∧ t.buflen = 1 ∧ t.len = 1 ∧ statusWord t = 0x00000101#32 := by decide +kernel
/-- R79: LEN wraps, and the 64th byte empties the buffer. -/
theorem test_pushb_wraps : let t := after (.pushb 0x00) (stateOf .absorb 63 0xFFFFFFFFFFFFFFFF)
    t.buflen = 0 ∧ t.len = 0 ∧ t.err = false := by decide
/-- R82's example. -/
theorem test_pushw_first : let t := after (.pushw 0x61626364) (stateOf .absorb 0 0)
    t.buf.toList.take 5 = [0x61, 0x62, 0x63, 0x64, 0x00] ∧ t.buflen = 4 ∧ t.len = 4 := by decide +kernel
/-- R82: a word over the block boundary; the block is 62 zero bytes and the word's first two. -/
theorem test_pushw_boundary : let t := after (.pushw 0x01020304) (stateOf .absorb 62 62)
    t.buflen = 2 ∧ t.buf[63] = 0x02#8 ∧ t.buf[0] = 0x03#8 ∧ t.buf[1] = 0x04#8 := by decide +kernel
/-- R80's example. -/
theorem test_final_abc : let t := after .final abcState
    t.chain = #v[0xA9993E36, 0x4706816A, 0xBA3E2571, 0x7850C26C, 0x9CD0D89D] ∧ t.len = 3 ∧
    statusWord t = 0x00000002#32 := by decide +kernel
/-- R81's example. -/
theorem test_clrerr_status : let s := (stateOf .absorb 5 5).setErr true 3
    statusWord s = 0x00000505#32 ∧ statusWord (after .clrerr s) = 0x00000501#32 := by decide
/-- R83's example. -/
theorem test_rd_digest_hex : let s := ((stateOf .done 0 3).setChain
      #v[0xA9993E36, 0x4706816A, 0xBA3E2571, 0x7850C26C, 0x9CD0D89D])
    (after (.rd 0x20) s).rdata = some 0xA9993E36#32 ∧ (after (.rd 0x40) s).rdata = some 0x61393939#32 := by decide +kernel
/-- R37, R94: a misaligned read of an unmapped address raises E_ALIGN and returns 0. -/
theorem test_rd_misaligned : let t := after (.rd 0x69) (stateOf .done 0 3)
    t.rdata = some 0#32 ∧ t.err = true ∧ t.errcode = 5 := by decide

/-! ## The functions, on the vectors of 95_test_vectors sections 1 and 3 -/

theorem test_sha1_empty : sha1 [] = #v[0xDA39A3EE, 0x5E6B4B0D, 0x3255BFEF, 0x95601890, 0xAFD80709] := by decide +kernel
/-- "The quick brown fox jumps over the lazy dog". -/
theorem test_sha1_fox : sha1 [0x54, 0x68, 0x65, 0x20, 0x71, 0x75, 0x69, 0x63, 0x6B, 0x20, 0x62, 0x72, 0x6F, 0x77, 0x6E,
    0x20, 0x66, 0x6F, 0x78, 0x20, 0x6A, 0x75, 0x6D, 0x70, 0x73, 0x20, 0x6F, 0x76, 0x65, 0x72, 0x20, 0x74, 0x68, 0x65, 0x20,
    0x6C, 0x61, 0x7A, 0x79, 0x20, 0x64, 0x6F, 0x67] =
    #v[0x2FD4E1C6, 0x7A2D28FC, 0xED849EE1, 0xBB76E739, 0x1B93EB12] := by decide +kernel
/-- Two blocks: 56 bytes 00 01 02 ... -/
theorem test_sha1_two_blocks : sha1 ((List.range 56).map (BitVec.ofNat 8)) =
    #v[0x636E2EC6, 0x98DAC903, 0x498E648B, 0xD2F3AF64, 0x1D3C88CB] := by decide +kernel
/-- 42_compression R71's example. -/
theorem test_round_zero : roundStep 0 0x61626380 (workInit iv) =
    ⟨0x0116FC33, 0x67452301, 0x7BF36AE2, 0x98BADCFE, 0x10325476⟩ := by decide
/-- 43_accumulator R85's example, "a9993e36". -/
theorem test_hex : (List.range 8).map (hexAt #v[0xA9993E36, 0, 0, 0, 0]) =
    [0x61, 0x39, 0x39, 0x39, 0x33, 0x65, 0x33, 0x36] := by decide

/-! ## Witnesses: the hypotheses of each statement are met, clause by clause at the edges of their ranges -/

theorem witness_DecodeOfEncodeIsTheOperation : (Instr.pushb 0xFF).wellFormed = true := by decide
theorem witness_EncodeOfDecodeIsTheCanonicalWord : decodeWord 0x10CFFFFFFFF#41 = .ok (.pushw 0xFFFFFFFF) ∧
    decodeWord 0x0FFFFFFFFFF#41 = .ok (.rd 0xFF) := by decide

theorem witness_CommandWriteChecksInOrder :
    let op (v : Word) := v.toNat % 256
    let imm (v : Word) := v.toNat / 256 % 256
    let rsv (v : Word) := v.toNat / 65536
    4 < op 0x05 ∧ 4 < op 0xFFFFFFFF ∧ (op 0x00010004 ≤ 4 ∧ rsv 0x00010004 ≠ 0) ∧
    (op 0x0104 ≤ 4 ∧ rsv 0x0104 = 0 ∧ op 0x0104 ≠ 2 ∧ imm 0x0104 ≠ 0) ∧
    (rsv 0 = 0 ∧ imm 0 = 0 ∧ op 0 = 0) ∧ (rsv 1 = 0 ∧ imm 1 = 0 ∧ op 1 = 1) ∧ (rsv 0xFF02 = 0 ∧ op 0xFF02 = 2) ∧
    (rsv 3 = 0 ∧ imm 3 = 0 ∧ op 3 = 3) ∧ (rsv 4 = 0 ∧ imm 4 = 0 ∧ op 4 = 4) ∧
    ((stateOf .done 0 0).phase ≠ .absorb ∧ (stateOf .idle 0 0).phase ≠ .absorb) := by decide

theorem witness_WriteChecksInOrder : (0xFF : Addr).toNat % 4 ≠ 0 ∧ (0x01 : Addr).toNat % 4 ≠ 0 ∧
    (0x00 : Addr).toNat = 0x00 ∧ (0x0C : Addr).toNat = 0x0C ∧
    ((0xFC : Addr).toNat % 4 = 0 ∧ (0xFC : Addr).toNat ≠ 0x00 ∧ (0xFC : Addr).toNat ≠ 0x0C) ∧
    (transact ⟨true, 0x04, 0⟩ (stateOf .idle 0 0) = .next (recorded 4 (stateOf .idle 0 0)) ∧
      (stateOf .idle 0 0).faultMark = false ∧ (recorded 4 (stateOf .idle 0 0)).faultMark = true) :=
  ⟨by decide, by decide, by decide, by decide, by decide, rfl, rfl, rfl⟩

theorem witness_IllegalTransactionsOnlyRecordAnError : (Transaction.mk true 0x08 0).wellFormed = false := by decide
theorem witness_RotateMovesBitsAround : (1 ≤ 1 ∧ 1 ≤ 31 ∧ 31 ≤ 31) ∧ 0 < 32 ∧ 31 < 32 := by decide

theorem witness_PadShapeAndInjective :
    (List.replicate 55 (0 : Byte)).length % 64 ≤ 55 ∧ 56 ≤ (List.replicate 56 (0 : Byte)).length % 64 ∧
    (0 < 1 ∧ 1 ≤ 0 + zeroCount 0) ∧ pad [] = pad [] := by decide

theorem witness_ScheduleFollowsRecurrence : (0 < 16 ∧ 15 < 16) ∧ (16 < 80 ∧ 16 ≤ 16) ∧ (79 < 80 ∧ 16 ≤ 79) := by decide
theorem witness_ScheduleIsLinear : 0 < 80 ∧ 79 < 80 := by decide
theorem witness_RoundFunctionTruthTable : (79 < 80 ∧ 31 < 32) ∧ 19 ≤ 19 ∧ ¬20 ≤ 19 ∧ (40 ≤ 40 ∧ 40 ≤ 59) ∧
    (40 ≤ 59 ∧ 59 ≤ 59) ∧ ¬(40 ≤ 60 ∧ 60 ≤ 59) := by decide
theorem witness_RoundAddsFiveTermsAndMoves : 0 < 80 ∧ 79 < 80 := by decide
theorem witness_CompressRunsEightyRounds : 0 < 80 ∧ 79 < 80 := by decide

theorem witness_NopLeavesTheState : ((0x100 : Word).toNat % 256 = 0 ∧ (0x100 : Word).toNat / 256 ≠ 0) ∧
    ((0xFFFFFF00 : Word).toNat % 256 = 0 ∧ (0xFFFFFF00 : Word).toNat / 256 ≠ 0) := by decide
theorem witness_PushbAppendsOneByte : (stateOf .absorb 62 62).phase = .absorb ∧ (stateOf .absorb 63 63).buflen.val = 63 ∧
    (stateOf .idle 0 0).phase ≠ .absorb ∧ (stateOf .done 0 0).phase ≠ .absorb := by decide
theorem witness_PushwIsFourPushb : (stateOf .absorb 59 59).phase = .absorb ∧ (stateOf .absorb 59 59).buflen.val < 60 ∧
    ¬(stateOf .absorb 60 60).buflen.val < 60 ∧ (∀ k, k < 4 → (8 : Fin 64).val ≠ ((60 : Fin 64).val + k) % 64) ∧
    (stateOf .done 0 0).phase ≠ .absorb := by decide
theorem witness_FinalPadsAndCompresses :
    ((stateOf .absorb 55 55).phase = .absorb ∧ (stateOf .absorb 55 55).buflen.val ≤ 55) ∧
    ((stateOf .absorb 56 56).phase = .absorb ∧ 56 ≤ (stateOf .absorb 56 56).buflen.val) ∧
    (stateOf .done 0 0).phase ≠ .absorb := by decide

theorem witness_ReadFollowsTheRegisterMap : (0x01 : Addr).toNat % 4 ≠ 0 ∧ (0xFF : Addr).toNat % 4 ≠ 0 ∧
    (0x04 : Addr).toNat = 0x04 ∧ (0x08 : Addr).toNat = 0x08 ∧ (0x10 : Addr).toNat = 0x10 ∧ (0x14 : Addr).toNat = 0x14 ∧
    ((0x20 : Addr).toNat = 0x20 + 4 * (0 : Fin 5).val ∧ (0x30 : Addr).toNat = 0x20 + 4 * (4 : Fin 5).val) ∧
    ((0x40 : Addr).toNat = 0x40 + 4 * (0 : Fin 10).val ∧ (0x64 : Addr).toNat = 0x40 + 4 * (9 : Fin 10).val) ∧
    ((stateOf .done 0 0).phase = .done ∧ (stateOf .absorb 0 0).phase ≠ .done) ∧
    (∀ a : Addr, a ∈ [0x00#8, 0x0C#8, 0x18#8, 0x34#8, 0x68#8, 0xFC#8] → a.toNat % 4 = 0 ∧ a.toNat ∉ [0x04, 0x08, 0x10, 0x14,
      0x20, 0x24, 0x28, 0x2C, 0x30, 0x40, 0x44, 0x48, 0x4C, 0x50, 0x54, 0x58, 0x5C, 0x60, 0x64]) := by decide

theorem witness_DigestIsBigEndianAndStable : (0 < 20 ∧ 19 < 20) ∧ (stateOf .done 0 3).phase = .done ∧
    decode ⟨true, 0x00, 0x00000003⟩ ≠ .ok .init ∧
    transact ⟨true, 0x00, 0x00000003⟩ (stateOf .done 0 3) = .next (recorded 3 (stateOf .done 0 3)) :=
  ⟨by decide, rfl, by decide, rfl⟩
theorem witness_HexWindowSpellsTheDigest : (0 < 8 ∧ 7 < 8) ∧ (0 < 4 ∧ 3 < 4) := by decide

theorem witness_RaiseRecordsAndChangesNothingElse :
    (let s := stateOf .idle 0 0
     let u := (recorded 3 s).setRdata (some 0)
     transact ⟨false, 0x20, 0⟩ s = .next u ∧ s.faultMark = false ∧ u.faultMark = true) ∧
    (let s1 := stateOf .absorb 0 0
     let s2 := recorded 1 s1
     s1 ≠ s2 ∧ SameButErr s1 s2 ∧ transact ⟨false, 0x10, 0⟩ s1 = .next (s1.setRdata (some 0))) := by
  exact ⟨⟨rfl, rfl, rfl⟩, by decide, ⟨rfl, rfl, rfl, rfl, rfl, rfl, rfl⟩, rfl⟩

theorem witness_FirstCauseIsRecorded : causeOf ⟨true, 0x00, 0x05⟩ .absorb = some 1 ∧
    causeOf ⟨true, 0x00, 0x00010001⟩ .absorb = some 2 ∧ causeOf ⟨true, 0x0C, 0⟩ .done = some 3 ∧
    causeOf ⟨false, 0x20, 0⟩ .absorb = some 3 ∧ causeOf ⟨false, 0x0C, 0⟩ .done = some 4 ∧
    causeOf ⟨true, 0x69, 0⟩ .done = some 5 ∧ causeOf ⟨true, 0x00, 0x00010005⟩ .idle = some 1 ∧
    causeOf ⟨true, 0x00, 0x00010002⟩ .idle = some 2 ∧ causeOf ⟨true, 0x00, 4⟩ .idle = none ∧
    decode ⟨true, 0x00, 4⟩ = .ok .clrerr ∧ causeOf ⟨true, 0x00, 0xFF02⟩ .absorb = none := by decide

/-- A run that raises, and one that does not. -/
theorem witness_FaultMarkIsSticky :
    (let s := ((stateOf .idle 0 0).setHost (programOf [.final, .clrerr]))
     (nextOr s (steps 2 s)).faultMark = true ∧ (nextOr s (steps 2 s)).err = false) ∧
    (let s := ((stateOf .idle 0 0).setHost (programOf [.init, .nop]))
     (nextOr s (steps 2 s)).faultMark = false ∧ s.err = false) := by decide

theorem witness_StepRunsTheDecodedOperation :
    (let s := (stateOf .idle 0 0).setHost (.transaction (encode .init) :: [.reset])
     s.host = .transaction (encode .init) :: [.reset] ∧ decode (encode .init) = .ok .init) ∧
    (let t : Transaction := ⟨true, 0x00, 0x00000005⟩
     let s := (stateOf .idle 0 0).setHost [.transaction t]
     s.host = .transaction t :: [] ∧ decode t = .error .eOpcode) ∧
    ((stateOf .idle 0 0).setHost [.reset]).host = .reset :: [] ∧ (stateOf .idle 0 0).host = [] ∧
    decodeWord 0x10000000001#41 = .ok .init := by decide

theorem witness_ResetLeavesTheStatedValues :
    ((stateOf .done 0 3).setHost [.reset]).host = .reset :: [] ∧
    (∀ a : Addr, a ∈ [0x04#8, 0x08#8, 0x10#8, 0x14#8] → a.toNat ∈ [0x04, 0x08, 0x10, 0x14]) := by decide

theorem witness_OnlyInitFinalAndResetChangePhase :
    perform .reset (stateOf .done 0 3) = .next (resetCore (stateOf .done 0 3)) ∧
    (nextOr (stateOf .done 0 3) (perform (.transaction (encode .init)) (stateOf .done 0 3))).phase = .absorb ∧
    (nextOr abcState (perform (.transaction (encode .final)) abcState)).phase = .done ∧
    (nextOr abcState (perform (.transaction (encode .nop)) abcState)).phase = .absorb := by
  refine ⟨rfl, by decide, by decide, by decide⟩

/-- INIT and the 64th byte write H; one byte writes BUF, BUFLEN and LEN; a read writes the read data. -/
theorem witness_WhoWritesTheMessageState :
    (after .init ((stateOf .idle 0 0).setChain #v[0, 0, 0, 0, 0])).chain ≠ #v[0, 0, 0, 0, 0] ∧
    (let s := stateOf .absorb 63 63; (after (.pushb 1) s).chain ≠ s.chain) ∧
    (let s := stateOf .absorb 0 0
     let t := after (.pushb 1) s
     t.buf ≠ s.buf ∧ t.buflen ≠ s.buflen ∧ t.len ≠ s.len) ∧
    (after (.rd 0x04) (stateOf .idle 0 0)).rdata ≠ (stateOf .idle 0 0).rdata := by decide +kernel

theorem witness_ReadIsIdempotent :
    exec (.rd 0x10) (stateOf .absorb 0 7) = .next ((stateOf .absorb 0 7).setRdata (some 7)) ∧
    exec (.rd 0x20) (stateOf .absorb 0 7) = .next ((recorded 3 (stateOf .absorb 0 7)).setRdata (some 0)) := ⟨rfl, rfl⟩

/-- A state that meets the invariant, with an error recorded, and a step from it. -/
theorem witness_EveryStepKeepsTheInvariant :
    let s := (recorded 3 (stateOf .absorb 5 69)).setHost (programOf [.nop])
    s.Inv ∧ step s = .next (s.setHost []) := by
  refine ⟨⟨by decide, by decide, by decide, by decide, by decide, by decide⟩, rfl⟩

/-- The message "abc" has been absorbed. -/
theorem abcState_absorbed : abcState.Absorbed [0x61, 0x62, 0x63] :=
  ⟨rfl, rfl, rfl, rfl, by decide⟩

theorem witness_PushesExtendTheAbsorbedMessage : abcState.Absorbed [0x61, 0x62, 0x63] ∧ feeds (.pushw 0) = true ∧
    feeds (.rd 0x14) = true := ⟨abcState_absorbed, rfl, rfl⟩
theorem witness_FinalLeavesTheDigestOfTheMessage : abcState.Absorbed [0x61, 0x62, 0x63] := abcState_absorbed

theorem witness_WellFormedRunComputesSha1 :
    let body : List Instr := [.pushb 0x61, .clrerr, .pushw 0x62636465, .rd 0x04]
    let s := (stateOf .done 0 3).setHost (programOf (.init :: body ++ [.final]) ++ [.reset])
    (∀ i ∈ body, feeds i = true) ∧ s.host = programOf (.init :: body ++ [.final]) ++ [.reset] ∧
    .clrerr ∈ body ∧ Instr.clrerr ∉ [Instr.nop] := by decide

theorem witness_HashReturnsTheDigest :
    ((stateOf .absorb 5 5).setHost (programOf (hashOps [0x61]) ++ [.reset])).host =
      programOf (hashOps [0x61]) ++ [.reset] := by decide

/-- "abcd" as one word and as four bytes, from different states. -/
theorem witness_DigestDependsOnTheBytesAlone :
    let body1 : List Instr := [.pushw 0x61626364]
    let body2 : List Instr := [.pushb 0x61, .pushb 0x62, .nop, .pushb 0x63, .pushb 0x64]
    let s1 := (stateOf .done 0 3).setHost (programOf (.init :: body1 ++ [.final]))
    let s2 := (recorded 1 abcState).setHost (programOf (.init :: body2 ++ [.final]))
    (∀ i ∈ body1, feeds i = true) ∧ (∀ i ∈ body2, feeds i = true) ∧ messageOf body1 = messageOf body2 ∧
    s1.host = programOf (.init :: body1 ++ [.final]) ++ [] ∧ s2.host = programOf (.init :: body2 ++ [.final]) ++ [] ∧
    (∃ t1, steps (body1.length + 2) s1 = .next t1) ∧ ∃ t2, steps (body2.length + 2) s2 = .next t2 :=
  ⟨by decide, by decide, by decide, by decide, by decide, ⟨_, rfl⟩, ⟨_, rfl⟩⟩

/-- Two states that differ in a dead byte of BUF, in H while IDLE and in the count of draws. -/
theorem witness_DeadStateNeverReachesTheHost :
    let s1 := stateOf .idle 0 0
    let s2 := { stateOf .idle 0 0 with chain := #v[1, 2, 3, 4, 5], buf := tabulate fun _ => 7, draws := 9 }
    s1 ≠ s2 ∧ SameLive s1 s2 ∧ steps 1 s1 = .next s1 := by
  refine ⟨by decide, ⟨rfl, rfl, rfl, rfl, rfl, rfl, rfl, rfl, fun h => absurd rfl h, fun i hi => ?_⟩, rfl⟩
  exact absurd (show i.val < 0 from hi) (Nat.not_lt_zero _)

theorem witness_ChainIsHiddenBeforeDone : abcState.phase ≠ .done ∧
    transact (encode .nop) abcState = .next abcState := ⟨by decide, rfl⟩

/-- An edge for each clause. -/
theorem witness_PortRefusesOnlyBrokenDuties :
    let p : Port := ⟨stateOf .idle 0 0, true, some (encode .init)⟩
    let q : Port := ⟨stateOf .idle 0 0, false, none⟩
    (Edge.mk true true true 0 1 true).rst = true ∧
    p.edge ⟨false, true, true, 0, 3, true⟩ = .refused .unstableTransaction ∧
    p.edge ⟨false, false, true, 0, 1, false⟩ = .refused .unstableTransaction ∧
    q.edge ⟨false, true, true, 0, 1, true⟩ = .refused .beforeFirstReset ∧
    p.edge ⟨false, true, true, 0, 1, false⟩ = .next p := ⟨rfl, rfl, rfl, rfl, rfl⟩

/-- INIT, two bytes, FINAL, a reset before them and NOP after: no fault, DONE. -/
theorem witness_FaultFreeRunLeavesTheDigestMeant :
    let es : List HostEvent := .reset :: programOf [.init, .pushb 0x61, .pushb 0x62, .final]
    let s := (stateOf .done 0 3).setHost (es ++ programOf [.nop])
    let t := nextOr s (steps es.length s)
    s.host = es ++ programOf [.nop] ∧ (∃ u, steps es.length s = .next u) ∧ t.faultMark = false ∧
    meantBy es = some [0x61, 0x62] ∧ t.phase = .done :=
  ⟨by decide, ⟨_, rfl⟩, by decide, by decide, by decide⟩

/-- The premise is needed: a byte pushed in DONE is meant, dropped, and marked. -/
theorem test_dropped_byte_is_marked :
    let es := programOf [.init, .final, .pushb 0x61]
    let s := (stateOf .idle 0 0).setHost es
    meantBy es = some [0x61] ∧ (nextOr s (steps 3 s)).faultMark = true := by decide

end Sys2Proof.Tests
end

section
/-! O25. What RD does at each address: a read that answers writes the read data only, a read that raises records its error
and answers 0, and `busRead_*` say which of the two holds. -/

namespace Sys2Proof.Machine

/-! ### What RD does with the answer of the register read (R83) -/

theorem exec_rd_of_ok {a : Addr} {s : State} {v : Word} (h : busRead a s = .ok v) :
    exec (.rd a) s = .next { s with rdata := some v } :=
  execRd_ok h

theorem exec_rd_of_error {a : Addr} {s : State} {e : ProtocolError} (h : busRead a s = .error e) :
    exec (.rd a) s = .next { recorded e.code s with rdata := some 0#32 } := by
  have hrd : exec (.rd a) s = .next ((raiseError e s).setRdata (some 0#32)) := execRd_error h
  rw [hrd, raiseError_eq]
  rfl

/-! ### The words read, as numbers of the state's fields (R28, R30) -/

theorem errcodeWord_eq_ofNat (s : State) : errcodeWord s = BitVec.ofNat 32 s.errcode.toNat := by
  rw [BitVec.ofNat_toNat, BitVec.setWidth_eq_append (by decide)]
  rfl

theorem extractLsb'_low_eq_ofNat (n : Dword) : n.extractLsb' 0 32 = BitVec.ofNat 32 (n.toNat % 2 ^ 32) := by
  apply BitVec.eq_of_toNat_eq
  simp

theorem extractLsb'_high_eq_ofNat (n : Dword) : n.extractLsb' 32 32 = BitVec.ofNat 32 (n.toNat / 2 ^ 32) := by
  apply BitVec.eq_of_toNat_eq
  simp [Nat.shiftRight_eq_div_pow]

/-! ### The registers that answer in DONE only (R23) -/

/-- A register the read answers in DONE and rejects elsewhere, as the digest and hex registers are. -/
theorem exec_rd_of_digestReady {a : Addr} {s : State} {v : Word}
    (h : busRead a s = if digestReady s then .ok v else .error .ePhase) :
    (s.phase = .done → exec (.rd a) s = .next { s with rdata := some v }) ∧
    (s.phase ≠ .done → exec (.rd a) s = .next { recorded 3 s with rdata := some 0#32 }) := by
  constructor <;> intro hp
  · exact exec_rd_of_ok (h.trans (if_pos ((digestReady_iff s).2 hp)))
  · exact exec_rd_of_error (h.trans (if_neg (mt (digestReady_iff s).1 hp)))

end Sys2Proof.Machine

open Sys2Proof.Machine in
/-- Settles O25: at each address the register read answers or fails as `busRead_*` say, and RD does the rest. -/
theorem readFollowsTheRegisterMap : Obligations.ReadFollowsTheRegisterMap := by
  intro a s
  refine ⟨?misaligned, ?status, ?errcode, ?lenLo, ?lenHi, ?digest, ?hex, ?unmapped⟩
  case misaligned => exact fun h => exec_rd_of_error (busRead_align s h)
  case status =>
    intro h
    obtain rfl := addr_eq h
    exact exec_rd_of_ok (busRead_status s)
  case errcode =>
    intro h
    obtain rfl := addr_eq h
    exact errcodeWord_eq_ofNat s ▸ exec_rd_of_ok (busRead_errcode s)
  case lenLo =>
    intro h
    obtain rfl := addr_eq h
    exact extractLsb'_low_eq_ofNat s.len ▸ exec_rd_of_ok (busRead_lenLo s)
  case lenHi =>
    intro h
    obtain rfl := addr_eq h
    exact extractLsb'_high_eq_ofNat s.len ▸ exec_rd_of_ok (busRead_lenHi s)
  case digest =>
    intro j h
    obtain rfl := addr_eq h
    exact exec_rd_of_digestReady (busRead_digest s j)
  case hex =>
    intro j h
    obtain rfl := addr_eq h
    exact exec_rd_of_digestReady (busRead_hex s j)
  case unmapped => exact fun h hn => exec_rd_of_error (busRead_addr s h hn)

end

section
/-! O3. A row of the opcode map is a condition on the fields we, addr, zero, opcode and imm8 of a word (R48, R49), and so is
what the decoder takes. Row by row the two conditions are the same one, so the rows a word fits are those of the mnemonic of
its decoded operation: one row, or none where the decoder rejects the word. -/

namespace Sys2Proof
open Machine

/-! ### A word is its fields, and a mask acts on each of them (R48, R49) -/

theorem word_eq_iff_fields {v p : Word} :
    v = p ↔ zeroOf v = zeroOf p ∧ opcodeOf v = opcodeOf p ∧ imm8Of v = imm8Of p := by
  have hv := v.isLt
  have hp := p.isLt
  simp only [← BitVec.toNat_inj, zeroOf_toNat, imm8Of_toNat, opcodeOf_toNat]
  omega

theorem word_and_eq_iff_fields {v m p : Word} : v &&& m = p ↔ zeroOf v &&& zeroOf m = zeroOf p ∧
    opcodeOf v &&& opcodeOf m = opcodeOf p ∧ imm8Of v &&& imm8Of m = imm8Of p := by
  simp only [word_eq_iff_fields, zeroOf, imm8Of, opcodeOf, BitVec.extractLsb'_and]

theorem transactionOf_inj {w p : TWord} : transactionOf w = transactionOf p ↔ w = p := by
  refine ⟨fun h => ?_, congrArg _⟩
  have hw := w.isLt
  have hp := p.isLt
  simp only [transactionOf, Transaction.mk.injEq, ← BitVec.toNat_inj, BitVec.extractLsb'_toNat,
    Nat.shiftRight_eq_div_pow, BitVec.getLsbD, Nat.testBit_eq_decide_div_mod_eq, decide_eq_decide] at h ⊢
  omega

theorem transactionOf_and (w m : TWord) : transactionOf (w &&& m) =
    ⟨(transactionOf w).we && (transactionOf m).we, (transactionOf w).addr &&& (transactionOf m).addr,
      (transactionOf w).wdata &&& (transactionOf m).wdata⟩ := by
  simp [transactionOf, BitVec.extractLsb'_and]

/-- `(T AND mask) = match` holds when it holds of each of we, addr and wdata. -/
theorem matchesWord_iff (r : OpcodeRow) (w : TWord) : r.matchesWord w = true ↔
    ((transactionOf w).we && (transactionOf r.mask).we) = (transactionOf r.pattern).we ∧
    (transactionOf w).addr &&& (transactionOf r.mask).addr = (transactionOf r.pattern).addr ∧
    (transactionOf w).wdata &&& (transactionOf r.mask).wdata = (transactionOf r.pattern).wdata := by
  rw [OpcodeRow.matchesWord, beq_iff_eq, ← transactionOf_inj, transactionOf_and, Transaction.mk.injEq]

theorem and_ones8 (x : BitVec 8) : x &&& 0xFF#8 = x := BitVec.and_allOnes
theorem and_ones16 (x : BitVec 16) : x &&& 0xFFFF#16 = x := BitVec.and_allOnes

/-! ### What the decoder takes, by the fields: `decodeCommand_ok` and `decode_ok` with their converses -/

theorem decodeCommand_ok_iff {v : Word} {i : Instr} : decodeCommand v = .ok i ↔ zeroOf v = 0 ∧
    ((opcodeOf v = 0x00 ∧ imm8Of v = 0 ∧ i = .nop) ∨ (opcodeOf v = 0x01 ∧ imm8Of v = 0 ∧ i = .init) ∨
     (opcodeOf v = 0x02 ∧ i = .pushb (imm8Of v)) ∨ (opcodeOf v = 0x03 ∧ imm8Of v = 0 ∧ i = .final) ∨
     (opcodeOf v = 0x04 ∧ imm8Of v = 0 ∧ i = .clrerr)) := by
  refine ⟨decodeCommand_ok, ?_⟩
  rintro ⟨hz, ⟨ho, hi, rfl⟩ | ⟨ho, hi, rfl⟩ | ⟨ho, rfl⟩ | ⟨ho, hi, rfl⟩ | ⟨ho, hi, rfl⟩⟩ <;>
    simp [decodeCommand, *]

theorem decode_ok_iff {t : Transaction} {i : Instr} : decode t = .ok i ↔
    (t.we = false ∧ i = .rd t.addr) ∨
    (t.we = true ∧ t.addr = 0x00 ∧ decodeCommand t.wdata = .ok i) ∨
    (t.we = true ∧ t.addr = 0x0C ∧ i = .pushw t.wdata) := by
  refine ⟨decode_ok, ?_⟩
  rintro (⟨hw, rfl⟩ | ⟨hw, ha, hc⟩ | ⟨hw, ha, rfl⟩)
  · simp [decode, hw]
  · simp [decode, hw, ha, hc, aligned]
  · simp [decode, hw, ha, aligned]

/-! ### The rows and the decoder agree (R51) -/

/-- A word fits a row of the map when the decoder takes it as the row's operation. -/
theorem matchesWord_iff_decodes {r : OpcodeRow} (hr : r ∈ opcodeTable) (w : TWord) :
    r.matchesWord w = true ↔ ∃ i, decodeWord w = .ok i ∧ mnemonicOf i = r.mnemonic := by
  rw [matchesWord_iff, word_and_eq_iff_fields, decodeWord]
  generalize transactionOf w = t
  simp only [decode_ok_iff, decodeCommand_ok_iff, and_or_left, or_and_right, exists_or]
  simp only [opcodeTable, List.mem_cons, List.not_mem_nil, or_false] at hr
  -- With the row given, its mask and pattern are numerals and both sides the same equations of fields.
  obtain rfl | rfl | rfl | rfl | rfl | rfl | rfl := hr <;>
    simp [transactionOf, zeroOf, opcodeOf, imm8Of, and_ones8, and_ones16, mnemonicOf]

/-- The mnemonics of the rows that a word fits. -/
def fittingMnemonics (w : TWord) : List String :=
  (opcodeTable.filter fun r => r.matchesWord w).map (·.mnemonic)

theorem fittingMnemonics_of_error {w : TWord} {e : ProtocolError} (h : decodeWord w = .error e) :
    fittingMnemonics w = [] := by
  have hnone : ∀ r ∈ opcodeTable, ¬ r.matchesWord w = true := by
    intro r hr hm
    obtain ⟨i, hi, -⟩ := (matchesWord_iff_decodes hr w).1 hm
    cases h.symm.trans hi
  rw [fittingMnemonics, List.filter_eq_nil_iff.2 hnone, List.map_nil]

/-- Each mnemonic heads one row of the map. -/
theorem opcodeTable_filter_mnemonic (i : Instr) :
    (opcodeTable.filter fun r => mnemonicOf i == r.mnemonic).map (·.mnemonic) = [mnemonicOf i] := by
  cases i <;> rfl

theorem fittingMnemonics_of_ok {w : TWord} {i : Instr} (h : decodeWord w = .ok i) :
    fittingMnemonics w = [mnemonicOf i] := by
  have hrow : ∀ r ∈ opcodeTable, r.matchesWord w = (mnemonicOf i == r.mnemonic) := by
    intro r hr
    rw [Bool.eq_iff_iff, matchesWord_iff_decodes hr, beq_iff_eq]
    simp [h]
  rw [fittingMnemonics, List.filter_congr hrow, opcodeTable_filter_mnemonic]

/-- The word written for PUSHB (R49). -/
theorem commandWord_toNat (imm8 opcode : Byte) :
    (commandWord imm8 opcode).toNat = imm8.toNat * 256 + opcode.toNat := by
  simp only [commandWord, append_toNat, BitVec.toNat_ofNat]
  omega

end Sys2Proof

open Sys2Proof in
/-- Settles O3: a word fits a row exactly when it decodes to the row's operation, and each mnemonic heads one row. -/
theorem opcodeMapDecidesTheOperation : Obligations.OpcodeMapDecidesTheOperation := by
  refine ⟨?fitting, rfl, rfl, rfl, rfl, ?pushb, fun _ => rfl, fun _ _ => rfl⟩
  case fitting =>
    intro w
    cases h : decodeWord w with
    | ok i => exact fittingMnemonics_of_ok h
    | error e => exact fittingMnemonics_of_error h
  case pushb => exact fun b => ⟨rfl, rfl, commandWord_toNat b 0x02⟩

end

section
/-! O10. Pad with its zero count and its length field as numbers (R56 to R58). -/

namespace Sys2Proof.Machine

/-! ### The length field as a number (R8, R58) -/

theorem bigEndian_bytesBe64 (n : Dword) : bigEndian (bytesBe64 n) = n.toNat := by
  have hn := n.isLt
  simp only [bigEndian, bytesBe64, List.foldl_cons, List.foldl_nil, BitVec.extractLsb'_toNat, Nat.shiftRight_eq_div_pow]
  omega

theorem bigEndian_lengthField (l : Nat) : bigEndian (lengthField l) = l * 8 % 2 ^ 64 := by
  rw [lengthField, bigEndian_bytesBe64, BitVec.toNat_ofNat]

/-! ### The zero count is the least that fits (R56, R57) -/

theorem zeroCount_fits (l : Nat) : (l + 1 + zeroCount l) % 64 = 56 := by
  rw [zeroCount]
  omega

theorem zeroCount_le_of_fits {l j : Nat} (h : (l + 1 + j) % 64 = 56) : zeroCount l ≤ j := by
  rw [zeroCount]
  omega

theorem pad_length (m : List Byte) : (pad m).length = m.length + 1 + zeroCount m.length + 8 := by
  simp only [pad, List.length_append, List.length_singleton, List.length_replicate, lengthField_length]

end Sys2Proof.Machine

open Sys2Proof.Machine in
/-- Settles O10: k is `zeroCount`, the least count that fits, and the field is `lengthField`. -/
theorem padAppendsMarkZerosAndLength : Obligations.PadAppendsMarkZerosAndLength := by
  refine ⟨fun m => ?parts, rfl⟩
  have hfits := zeroCount_fits m.length
  refine ⟨zeroCount m.length, lengthField m.length, rfl, hfits, ?least, rfl, bigEndian_lengthField m.length,
    ?whole, ?bound⟩
  case least => exact fun j hj h => absurd hj (Nat.not_lt.2 (zeroCount_le_of_fits h))
  case whole =>
    rw [pad_length]
    omega
  case bound =>
    rw [pad_length]
    omega

end

section
/-! O23. The blocks of PadFinal byte by byte, and FINAL as one write of the chain, BUF, BUFLEN and PHASE (R60, R80). -/

namespace Sys2Proof.Machine

/-! ### The length field at the end of a block -/

theorem bytesBe64_getD_toNat (n : Dword) {k : Nat} (h : k < 8) :
    ((bytesBe64 n).getD k 0#8).toNat = n.toNat / 2 ^ (8 * (7 - k)) % 256 := by
  interval_cases k <;> simp [bytesBe64, Nat.shiftRight_eq_div_pow]

theorem putLength_field_toNat (n : Dword) (b : Block) {k : Nat} (h : k < 8) :
    ((putLength n b)[56 + k]'(by omega)).toNat = n.toNat / 2 ^ (8 * (7 - k)) % 256 := by
  have hget := putLength_get n b ⟨56 + k, by omega⟩
  rw [if_pos (Nat.le_add_right 56 k), Nat.add_sub_cancel_left] at hget
  exact (congrArg BitVec.toNat hget).trans (bytesBe64_getD_toNat n h)

/-- PadFinal writes the bit length modulo 2^64. -/
theorem putLength_bitLength_toNat (n : Dword) (b : Block) {k : Nat} (h : k < 8) :
    ((putLength (n * 8) b)[56 + k]'(by omega)).toNat = n.toNat * 8 % 2 ^ 64 / 2 ^ (8 * (7 - k)) % 256 := by
  rw [putLength_field_toNat (n * 8) b h, BitVec.toNat_mul]
  rfl

/-! ### The bytes of BUF, the mark and the zeros in the blocks of PadFinal -/

section
variable (s : State)

theorem oneBlock_get_remainder (hs : s.buflen.val ≤ 55) {i : Fin 64} (h : i < s.buflen) :
    (oneBlock s)[i] = s.buf[i] := by
  have hi := Fin.lt_def.1 h
  rw [oneBlock_get, if_neg (by omega), if_neg (lt_asymm hi), if_neg (ne_of_lt h)]

theorem oneBlock_get_mark (hs : s.buflen.val ≤ 55) : (oneBlock s)[s.buflen] = 0x80#8 := by
  rw [oneBlock_get, if_neg (by omega), if_neg (lt_irrefl _), if_pos rfl]

theorem oneBlock_get_zero {i : Fin 64} (h : s.buflen < i) (hi : i.val < 56) : (oneBlock s)[i] = 0x00#8 := by
  rw [oneBlock_get, if_neg (by omega), if_pos (Fin.lt_def.1 h)]

theorem firstBlock_get_remainder {i : Fin 64} (h : i < s.buflen) : (firstBlock s)[i] = s.buf[i] := by
  rw [firstBlock_get, if_neg (lt_asymm (Fin.lt_def.1 h)), if_neg (ne_of_lt h)]

theorem firstBlock_get_mark : (firstBlock s)[s.buflen] = 0x80#8 := by
  rw [firstBlock_get, if_neg (lt_irrefl _), if_pos rfl]

theorem firstBlock_get_zero {i : Fin 64} (h : s.buflen < i) : (firstBlock s)[i] = 0x00#8 := by
  rw [firstBlock_get, if_pos (Fin.lt_def.1 h)]

theorem secondBlock_get_zero {i : Fin 64} (h : i.val < 56) : (secondBlock s)[i] = 0x00#8 := by
  rw [secondBlock_get, if_neg (by omega)]

end

/-! ### FINAL as a whole -/

theorem exec_final_short {s : State} (hp : s.phase = .absorb) (hs : s.buflen.val ≤ 55) :
    exec .final s = .next { s with
      chain := compress s.chain (schedule (oneBlock s)), buf := oneBlock s, buflen := 0, phase := .done } := by
  have hfinal : exec .final s = .next (((padFinal s).setBuflen 0).setPhase .done) := execFinal_absorb hp
  rw [hfinal, padFinal_short s hs]
  rfl

theorem exec_final_long {s : State} (hp : s.phase = .absorb) (hs : 56 ≤ s.buflen.val) :
    exec .final s = .next { s with
      chain := compress (compress s.chain (schedule (firstBlock s))) (schedule (secondBlock s)),
      buf := secondBlock s, buflen := 0, phase := .done } := by
  have hfinal : exec .final s = .next (((padFinal s).setBuflen 0).setPhase .done) := execFinal_absorb hp
  rw [hfinal, padFinal_long s hs]
  rfl

/-- A raise is what `recorded` says (R93, R96). -/
theorem raiseError_eq_recorded (e : ProtocolError) (s : State) : raiseError e s = recorded e.code s := by
  rw [raiseError_eq]
  rfl

theorem exec_final_rejects {s : State} (hp : s.phase ≠ .absorb) : exec .final s = .next (recorded 3 s) :=
  (execFinal_rejects hp).trans (congrArg _ (raiseError_eq_recorded .ePhase s))

end Sys2Proof.Machine

open Sys2Proof.Machine in
/-- Settles O23: FINAL compresses `oneBlock`, or `firstBlock` and `secondBlock`, whose bytes are those of R60. -/
theorem finalPadsAndCompresses : Obligations.FinalPadsAndCompresses := by
  intro s
  refine ⟨?short, ?long, exec_final_rejects⟩
  case short =>
    intro hp hs
    exact ⟨oneBlock s, ⟨fun _ => oneBlock_get_remainder s hs, oneBlock_get_mark s hs⟩,
      fun _ => oneBlock_get_zero s, fun _ => putLength_bitLength_toNat s.len _, exec_final_short hp hs⟩
  case long =>
    intro hp hs
    exact ⟨firstBlock s, secondBlock s, ⟨fun _ => firstBlock_get_remainder s, firstBlock_get_mark s⟩,
      fun _ => firstBlock_get_zero s, fun _ => secondBlock_get_zero s, fun _ => putLength_bitLength_toNat s.len _,
      exec_final_long hp hs⟩

end

section
/-! O14. The words that Expand has left stay, so each word of the schedule is the recurrence of earlier ones (R63, R64). -/

namespace Sys2Proof.Machine

/-- The steps of Expand after the first m leave the words there were. -/
theorem expand_get_of_le (w : Vector Word 16) {m n i : Nat} (hmn : m ≤ n) (hi : i < 16 + m) :
    (expand w n)[i]'(by omega) = (expand w m)[i] := by
  induction n, hmn using Nat.le_induction with
  | base => rfl
  | succ n hmn ih => rw [expand_get_lt w n i (by omega), ih]

/-- The recurrence of Expand among the words after n of its steps. -/
theorem expand_get_recurrence (w : Vector Word 16) {n k : Nat} (hk : k < n) :
    (expand w n)[16 + k]'(by omega) = rotl32 ((expand w n)[13 + k]'(by omega) ^^^ (expand w n)[8 + k]'(by omega) ^^^
      (expand w n)[2 + k]'(by omega) ^^^ (expand w n)[k]'(by omega)) 1 := by
  have hold {i : Nat} (hi : i < 16 + k) : (expand w n)[i]'(by omega) = (expand w k)[i] := expand_get_of_le w hk.le hi
  rw [expand_get_of_le w hk (by omega), expand_get_new, hold, hold, hold, hold]

/-- The first 16 words of the schedule are those of the block (R63). -/
theorem schedule_get_of_lt (b : Block) {i : Nat} (h : i < 16) : (schedule b)[i]'(by omega) =
    be32 (b[4 * i]'(by omega)) (b[4 * i + 1]'(by omega)) (b[4 * i + 2]'(by omega)) (b[4 * i + 3]'(by omega)) := by
  rw [schedule, expand_get_of_le _ (Nat.zero_le 64) h, expand_zero, loadWords_get]

/-- The later words of the schedule follow the recurrence (R64). -/
theorem schedule_get_of_le (b : Block) {t : Nat} (ht : 16 ≤ t) (h : t < 80) : (schedule b)[t] =
    rotl32 ((schedule b)[t - 3] ^^^ (schedule b)[t - 8] ^^^ (schedule b)[t - 14] ^^^ (schedule b)[t - 16]) 1 := by
  obtain ⟨k, rfl⟩ := Nat.exists_eq_add_of_le ht
  have h3 : 16 + k - 3 = 13 + k := by omega
  have h8 : 16 + k - 8 = 8 + k := by omega
  have h14 : 16 + k - 14 = 2 + k := by omega
  have h16 : 16 + k - 16 = k := by omega
  simp only [h3, h8, h14, h16]
  exact expand_get_recurrence (loadWords b) (by omega)

/-- An all-zero block has an all-zero schedule (R64). -/
theorem schedule_zero_get (t : Nat) (h : t < 80) : (schedule (tabulate fun _ => 0x00#8))[t] = 0#32 := by
  induction t using Nat.strong_induction_on with
  | _ t ih =>
    obtain hlt | hle := Nat.lt_or_ge t 16
    · simp only [schedule_get_of_lt _ hlt, tabulate_getElem]
      rfl
    · rw [schedule_get_of_le _ hle h, ih (t - 3) (by omega), ih (t - 8) (by omega), ih (t - 14) (by omega),
        ih (t - 16) (by omega)]
      rfl

end Sys2Proof.Machine

open Sys2Proof.Machine in
/-- Settles O14: `schedule_get_of_lt` and `schedule_get_of_le` give each word, and the words of "abc" are evaluated. -/
theorem scheduleFollowsRecurrence : Obligations.ScheduleFollowsRecurrence := by
  refine ⟨fun b => ⟨fun _ => schedule_get_of_lt b, fun _ h ht => schedule_get_of_le b ht h⟩, schedule_zero_get, ?abc⟩
  case abc => exact ⟨rfl, rfl, rfl, rfl, rfl⟩

end

section
/-! O18. The trace of Compress: the working registers after the first t rounds (R73). -/

namespace Sys2Proof.Machine

/-- The rounds on a list of words in two parts: the second part starts at the round, and on the registers, where the first
part ends. -/
theorem runRounds_append (t : Nat) (ws ws' : List Word) (r : Working) :
    runRounds t (ws ++ ws') r = runRounds (t + ws.length) ws' (runRounds t ws r) := by
  induction ws generalizing t r with
  | nil => rfl
  | cons w ws ih =>
    rw [List.cons_append, runRounds_cons, runRounds_cons, ih, List.length_cons, Nat.add_right_comm, Nat.add_assoc]

/-- The working registers of `Compress(h, w)` after its first t rounds. -/
def workingAfter (h : Chain) (w : Vector Word 80) (t : Nat) : Working := runRounds 0 (w.toList.take t) (workInit h)

section
variable (h : Chain) (w : Vector Word 80)

theorem workingAfter_zero : workingAfter h w 0 = workInit h := rfl

/-- Round t is the step from the registers the rounds before it left. -/
theorem workingAfter_succ {t : Nat} (ht : t < 80) : workingAfter h w (t + 1) = roundStep t w[t] (workingAfter h w t) := by
  have hlt : t < w.toList.length := by rwa [Vector.length_toList]
  have htake : w.toList.take (t + 1) = w.toList.take t ++ [w[t]] := by
    rw [List.take_succ_eq_append_getElem hlt, Vector.getElem_toList]
  rw [workingAfter, htake, runRounds_append, List.length_take_of_le hlt.le, Nat.zero_add, runRounds_cons, runRounds_nil,
    workingAfter]

/-- Compress folds in what the 80 rounds leave. -/
theorem compress_eq_foldInto : compress h w = foldInto h (workingAfter h w 80) := by
  rw [compress, workingAfter, List.take_of_length_le (Vector.length_toList).le]

end

end Sys2Proof.Machine

open Sys2Proof.Machine in
/-- Settles O18: the trace is `workingAfter`, which starts at WorkInit, makes one round a step and ends in the fold. -/
theorem compressRunsEightyRounds : Obligations.CompressRunsEightyRounds :=
  fun h w => ⟨workingAfter h w, workingAfter_zero h w, fun _ ht => workingAfter_succ h w ht, compress_eq_foldInto h w⟩

end

section
/-! O21. PUSHB: the command word written for it, and PushByte, which writes the chain, BUF, BUFLEN and LEN only (R76, R79). -/

namespace Sys2Proof.Machine

theorem encode_pushb (b : Byte) : encode (.pushb b) = ⟨true, 0x00, BitVec.ofNat 32 (b.toNat * 256 + 2)⟩ := by
  have hword : commandWord b 0x02 = BitVec.ofNat 32 (b.toNat * 256 + 2) := by
    have hb := b.isLt
    apply BitVec.eq_of_toNat_eq
    rw [commandWord_toNat, BitVec.toNat_ofNat]
    exact (Nat.mod_eq_of_lt (by omega)).symm
  exact congrArg (Transaction.mk true 0x00) hword

theorem exec_pushb_absorb {s : State} (b : Byte) (hp : s.phase = .absorb) :
    exec (.pushb b) s = .next (pushByte b s) :=
  execPushb_absorb b hp

theorem exec_pushb_rejects {s : State} (b : Byte) (hp : s.phase ≠ .absorb) :
    exec (.pushb b) s = .next (recorded 3 s) :=
  (execPushb_rejects b hp).trans (congrArg _ (raiseError_eq_recorded .ePhase s))

/-- The bytes of a list are pushed into the chain, BUF, BUFLEN and LEN; every other field stays. -/
theorem pushBytes_frame (bs : List Byte) (s : State) : pushBytes bs s = { s with
    chain := (pushBytes bs s).chain, buf := (pushBytes bs s).buf, buflen := (pushBytes bs s).buflen,
    len := (pushBytes bs s).len } :=
  State.ext_fields rfl rfl rfl rfl (pushBytes_phase s bs) (pushBytes_err s bs) (pushBytes_errcode s bs)
    (pushBytes_rdata s bs) (pushBytes_host s bs) (pushBytes_faultMark s bs) (pushBytes_draws s bs)

section
variable (b : Byte) (s : State)

theorem pushByte_frame : pushByte b s = { s with
    chain := (pushByte b s).chain, buf := (pushByte b s).buf, buflen := (pushByte b s).buflen,
    len := (pushByte b s).len } :=
  pushBytes_frame [b] s

theorem pushByte_buf_get_buflen : (pushByte b s).buf[s.buflen] = b := by
  rw [pushByte_buf, block_set_get, if_pos rfl]

theorem pushByte_buf_get_of_ne {i : Fin 64} (h : i ≠ s.buflen) : (pushByte b s).buf[i] = s.buf[i] := by
  rw [pushByte_buf, block_set_get, if_neg h]

theorem pushByte_buflen_val : (pushByte b s).buflen.val = (s.buflen.val + 1) % 64 := by
  rw [pushByte_buflen, Fin.val_add]
  rfl

end

end Sys2Proof.Machine

open Sys2Proof.Machine in
/-- Settles O21: in ABSORB the state reached is that of PushByte, field by field. -/
theorem pushbAppendsOneByte : Obligations.PushbAppendsOneByte := by
  intro b s
  refine ⟨encode_pushb b, ?absorb, exec_pushb_rejects b⟩
  case absorb =>
    intro hp
    refine ⟨pushByte b s, exec_pushb_absorb b hp, pushByte_buf_get_buflen b s, fun _ => pushByte_buf_get_of_ne b s,
      ?len, ?buflen, ?chain, pushByte_frame b s⟩
    case len =>
      rw [pushByte_len, BitVec.toNat_add]
      rfl
    case buflen =>
      rw [pushByte_buflen_val]
      split <;> omega
    case chain => rw [pushByte_chain, pushByte_buf]

end

section
/-! O22. PUSHW is four times PushByte. What a push of several bytes leaves in BUF, BUFLEN, LEN and H is proved for a list of
bytes, by induction along it (R76, R82). -/

namespace Sys2Proof.Machine

theorem exec_pushw_absorb {s : State} (w : Word) (hp : s.phase = .absorb) :
    exec (.pushw w) s = .next (pushBytes (imm32Bytes w) s) :=
  execPushw_absorb w hp

theorem exec_pushw_rejects {s : State} (w : Word) (hp : s.phase ≠ .absorb) :
    exec (.pushw w) s = .next (recorded 3 s) :=
  (execPushw_rejects w hp).trans (congrArg _ (raiseError_eq_recorded .ePhase s))

theorem pushBytes_len (bs : List Byte) (s : State) : (pushBytes bs s).len = s.len + BitVec.ofNat 64 bs.length := by
  induction bs generalizing s with
  | nil => exact (BitVec.add_zero s.len).symm
  | cons b bs ih =>
    rw [pushBytes_cons, ih, pushByte_len, List.length_cons, BitVec.add_assoc, Nat.add_comm, BitVec.ofNat_add]
    rfl

theorem pushBytes_buflen_val (bs : List Byte) (s : State) :
    (pushBytes bs s).buflen.val = (s.buflen.val + bs.length) % 64 := by
  induction bs generalizing s with
  | nil => exact (Nat.mod_eq_of_lt s.buflen.isLt).symm
  | cons b bs ih =>
    rw [pushBytes_cons, ih, pushByte_buflen_val, List.length_cons]
    omega

/-- Byte k of the list goes to index (BUFLEN + k) mod 64; the bytes of BUF elsewhere stay. -/
theorem pushBytes_buf_get_of_ne (bs : List Byte) (s : State) (i : Fin 64)
    (h : ∀ k, k < bs.length → i.val ≠ (s.buflen.val + k) % 64) : (pushBytes bs s).buf[i] = s.buf[i] := by
  induction bs generalizing s with
  | nil => rfl
  | cons b bs ih =>
    have hfirst : i ≠ s.buflen := by
      rintro rfl
      exact h 0 (Nat.zero_lt_succ _) (Nat.mod_eq_of_lt s.buflen.isLt).symm
    have hrest : ∀ k, k < bs.length → i.val ≠ ((pushByte b s).buflen.val + k) % 64 := by
      intro k hk
      have hne := h (k + 1) (Nat.succ_lt_succ hk)
      rw [pushByte_buflen_val]
      omega
    rw [pushBytes_cons, ih (pushByte b s) hrest, pushByte_buf_get_of_ne b s hfirst]

/-- Where the bytes do not fill BUF no block is processed. -/
theorem pushBytes_chain_of_fits (bs : List Byte) (s : State) (h : s.buflen.val + bs.length < 64) :
    (pushBytes bs s).chain = s.chain := by
  induction bs generalizing s with
  | nil => rfl
  | cons b bs ih =>
    rw [List.length_cons] at h
    have hrest : (pushByte b s).buflen.val + bs.length < 64 := by
      rw [pushByte_buflen_val]
      omega
    rw [pushBytes_cons, ih (pushByte b s) hrest, pushByte_chain, if_neg (by omega)]

end Sys2Proof.Machine

open Sys2Proof.Machine in
/-- Settles O22: the four PUSHB stay in ABSORB, so they are the four PushByte that PUSHW makes. -/
theorem pushwIsFourPushb : Obligations.PushwIsFourPushb := by
  intro w s
  refine ⟨rfl, ?absorb, exec_pushw_rejects w⟩
  case absorb =>
    intro hp
    have hp1 := (pushByte_phase s (w.extractLsb' 24 8)).trans hp
    have hp2 := (pushByte_phase _ (w.extractLsb' 16 8)).trans hp1
    have hp3 := (pushByte_phase _ (w.extractLsb' 8 8)).trans hp2
    refine ⟨_, _, _, pushBytes (imm32Bytes w) s, exec_pushb_absorb _ hp, exec_pushb_absorb _ hp1,
      exec_pushb_absorb _ hp2, exec_pushb_absorb _ hp3, exec_pushw_absorb w hp,
      pushBytes_buf_get_of_ne (imm32Bytes w) s, ?len, pushBytes_buflen_val (imm32Bytes w) s, ?chain,
      pushBytes_frame (imm32Bytes w) s⟩
    case len =>
      rw [pushBytes_len, BitVec.toNat_add]
      rfl
    case chain =>
      intro hfits
      exact pushBytes_chain_of_fits (imm32Bytes w) s (Nat.add_lt_add_right hfits 4)

end

section
/-! O27. The bytes of the digest as numbers of its words, and what an operation leaves in DONE (R84). -/

namespace Sys2Proof.Machine

theorem bytesBe32_getElem? (w : Word) {k : Nat} (h : k < 4) :
    (bytesBe32 w)[k]? = some (BitVec.ofNat 8 (w.toNat / 2 ^ (24 - 8 * k))) := by
  simp only [← Nat.shiftRight_eq_div_pow]
  interval_cases k <;> rfl

/-- Word j of the chaining state is bytes 4j .. 4j+3 of the digest. -/
theorem digestBytes_getElem?_word (h : Chain) (j : Fin 5) {k : Nat} (hk : k < 4) :
    (digestBytes h)[4 * j.val + k]? = (bytesBe32 h[j])[k]? := by
  fin_cases j <;> interval_cases k <;> rfl

theorem digestBytes_getElem? (h : Chain) {i : Nat} (hi : i < 20) : (digestBytes h)[i]? = some (BitVec.ofNat 8
    ((h.toList.getD (i / 4) 0#32).toNat / 2 ^ (24 - 8 * (i % 4)))) := by
  have hj : i / 4 < 5 := by omega
  have hk : i % 4 < 4 := Nat.mod_lt i (by decide)
  have hword : h.toList.getD (i / 4) 0#32 = h[i / 4] := by
    rw [List.getD_eq_getElem _ _ (by rwa [Vector.length_toList]), Vector.getElem_toList]
  calc (digestBytes h)[i]? = (digestBytes h)[4 * (i / 4) + i % 4]? := by rw [Nat.div_add_mod]
    _ = (bytesBe32 h[i / 4])[i % 4]? := digestBytes_getElem?_word h ⟨i / 4, hj⟩ hk
    _ = _ := by rw [bytesBe32_getElem? _ hk, hword]

/-- In DONE no operation but INIT writes H or PHASE: PUSHB, PUSHW and FINAL are rejected there. -/
theorem exec_done_chain_phase {i : Instr} {s u : State} (hp : s.phase = .done) (hi : i ≠ .init)
    (h : exec i s = .next u) : u.chain = s.chain ∧ u.phase = .done := by
  rw [← hp]
  have hna : s.phase ≠ .absorb := by simp [hp]
  rcases exec_cases h with ⟨_, rfl⟩ | ⟨hinit, _⟩ | ⟨_, _, ha, _⟩ | ⟨_, ha, _⟩ | ⟨_, rfl⟩ | ⟨_, _, ha, _⟩ |
    ⟨_, _, _, _, rfl⟩ | ⟨_, _, _, _, rfl⟩ | ⟨_, _, rfl⟩
  · exact ⟨rfl, rfl⟩
  · exact absurd hinit hi
  · exact absurd ha hna
  · exact absurd ha hna
  · exact ⟨rfl, rfl⟩
  · exact absurd ha hna
  · exact ⟨rfl, rfl⟩
  · exact ⟨raiseError_chain s _, raiseError_phase s _⟩
  · exact ⟨raiseError_chain s _, raiseError_phase s _⟩

end Sys2Proof.Machine

open Sys2Proof.Machine in
/-- Settles O27: an illegal transaction raises only, and in DONE a legal one is `exec_done_chain_phase`. -/
theorem digestIsBigEndianAndStable : Obligations.DigestIsBigEndianAndStable := by
  refine ⟨fun h => ⟨digestBytes_length h, fun _ => digestBytes_getElem? h⟩, ?stable,
    fun s j hp => (exec_rd_of_digestReady (busRead_digest s j)).1 hp⟩
  case stable =>
    intro t s u hp hni hu
    obtain ⟨i, hd, hi⟩ | ⟨e, -, rfl⟩ := transact_cases hu
    · exact exec_done_chain_phase (s := s.setRdata none) hp (fun hinit => hni (hinit ▸ hd)) hi
    · exact ⟨raiseError_chain _ e, (raiseError_phase _ e).trans hp⟩

end

section
/-! O20. STATUS as a number, and the digest and hex reads outside DONE (R27, R37). -/

namespace Sys2Proof.Machine

theorem statusWord_toNat (s : State) :
    (statusWord s).toNat = s.phase.bits.toNat + 4 * s.err.toNat + 256 * s.buflen.val := by
  have hn := s.buflen.isLt
  simp only [statusWord, append_toNat, BitVec.toNat_ofNat, BitVec.toNat_ofBool]
  omega

theorem busRead_digest_of_not_done {s : State} (hp : s.phase ≠ .done) (j : Fin 5) :
    busRead (Reg.digest j).address s = .error .ePhase :=
  (busRead_digest s j).trans (if_neg (mt (digestReady_iff s).1 hp))

theorem busRead_hex_of_not_done {s : State} (hp : s.phase ≠ .done) (j : Fin 10) :
    busRead (Reg.hex j).address s = .error .ePhase :=
  (busRead_hex s j).trans (if_neg (mt (digestReady_iff s).1 hp))

end Sys2Proof.Machine

open Sys2Proof.Machine in
/-- Settles O20: INIT is its four writes, and in ABSORB no digest or hex read answers. -/
theorem initStartsAMessage : Obligations.InitStartsAMessage := by
  refine ⟨rfl, fun s => ?_⟩
  intro t
  have hp : t.phase ≠ .done := nofun
  exact ⟨rfl, rfl, statusWord_toNat t, busRead_digest_of_not_done hp, busRead_hex_of_not_done hp⟩

end

section
/-! O24. What CLRERR takes off STATUS (R27, R81). -/

namespace Sys2Proof.Machine

/-- ERR counts 4 in STATUS, and clearing it takes that off. -/
theorem statusWord_clearError_toNat (s : State) :
    (statusWord (clearError s)).toNat + 4 * s.err.toNat = (statusWord s).toNat := by
  rw [statusWord_toNat, statusWord_toNat, clearError_phase, clearError_err, clearError_buflen, Bool.toNat_false]
  omega

end Sys2Proof.Machine

open Sys2Proof.Machine in
/-- Settles O24: CLRERR is `clearError`, which writes ERR and ERRCODE. -/
theorem clrerrClearsOnlyTheError : Obligations.ClrerrClearsOnlyTheError :=
  ⟨rfl, fun s => ⟨rfl, statusWord_clearError_toNat s⟩⟩

end

section
/-! O30. The causes of the table are the errors of the decoder, of the phase check of a legal write and of the register
read, so each case of `transact_cases` and `exec_cases` has its cause or none (R92, R94). -/

namespace Sys2Proof.Machine

/-! ### The causes of a write, by its address -/

/-- The first cause of a write to CMD, by the fields of the word (R49). -/
theorem causeOf_cmd (v : Word) (p : Phase) : causeOf ⟨true, 0x00, v⟩ p =
    if 0x04#8 < opcodeOf v then some 1
    else if zeroOf v ≠ 0 ∨ opcodeOf v ≠ 0x02 ∧ imm8Of v ≠ 0 then some 2
    else if (opcodeOf v = 0x02 ∨ opcodeOf v = 0x03) ∧ p ≠ .absorb then some 3
    else none := by
  have hzero : zeroOf v ≠ 0 ↔ 65536 ≤ v.toNat := by
    rw [ne_eq, zeroOf_eq_zero]
    omega
  simp only [hzero, lt_opcodeOf, ne_eq, opcodeOf_eq, imm8Of_eq_zero]
  simp [causeOf]

theorem causeOf_din (v : Word) (p : Phase) : causeOf ⟨true, 0x0C, v⟩ p = if p ≠ .absorb then some 3 else none := by
  simp [causeOf]

theorem causeOf_of_misaligned {t : Transaction} (p : Phase) (h : t.addr.toNat % 4 ≠ 0) : causeOf t p = some 5 :=
  if_pos h

theorem causeOf_write_elsewhere {a : Addr} (v : Word) (p : Phase) (h : a.toNat % 4 = 0) (h0 : a ≠ 0x00) (hc : a ≠ 0x0C) :
    causeOf ⟨true, a, v⟩ p = some 4 := by
  have h0' : a.toNat ≠ 0x00 := fun h => h0 (addr_eq h)
  have hc' : a.toNat ≠ 0x0C := fun h => hc (addr_eq h)
  simp [causeOf, h, h0', hc']

theorem causeOf_read (a : Addr) (v : Word) (p : Phase) : causeOf ⟨false, a, v⟩ p =
    if a.toNat % 4 ≠ 0 then some 5
    else if a.toNat ∉ readableAddrs then some 4
    else if 0x20 ≤ a.toNat ∧ p ≠ .done then some 3
    else none := by
  simp [causeOf]

/-! ### The cause is the decoder's error, or the phase a write needs -/

theorem causeOf_cmd_of_error {v : Word} {e : ProtocolError} (p : Phase) (h : decodeCommand v = .error e) :
    causeOf ⟨true, 0x00, v⟩ p = some e.code.toNat := by
  rw [causeOf_cmd]
  unfold decodeCommand at h
  split_ifs at h with hop hzero himm <;> cases h
  · rw [if_pos hop]
    rfl
  · rw [if_neg hop, if_pos (.inl hzero)]
    rfl
  · rw [if_neg hop, if_pos (.inr himm)]
    rfl

theorem causeOf_of_decode_error {t : Transaction} {e : ProtocolError} (p : Phase) (h : decode t = .error e) :
    causeOf t p = some e.code.toNat := by
  obtain ⟨we, a, v⟩ := t
  unfold decode at h
  split_ifs at h with hwe halign hcmd hdin
  · cases h
    exact causeOf_of_misaligned p ((not_aligned_iff a).1 halign)
  · obtain rfl : we = true := eq_true_of_ne_false hwe
    obtain rfl : a = 0x00 := hcmd
    exact causeOf_cmd_of_error p h
  · cases h
    obtain rfl : we = true := eq_true_of_ne_false hwe
    exact causeOf_write_elsewhere v p ((aligned_iff a).1 (eq_true_of_ne_false halign)) hcmd hdin

/-- The operations that need ABSORB (R23). -/
def needsAbsorb : Instr → Bool
  | .nop     => false
  | .init    => false
  | .pushb _ => true
  | .final   => true
  | .clrerr  => false
  | .pushw _ => true
  | .rd _    => false

/-- A legal write has a cause only where it needs ABSORB and the phase is another. -/
theorem causeOf_of_decode_write {t : Transaction} {i : Instr} (p : Phase) (h : decode t = .ok i) (hi : ∀ a, i ≠ .rd a) :
    causeOf t p = if needsAbsorb i = true ∧ p ≠ .absorb then some 3 else none := by
  obtain ⟨we, a, v⟩ := t
  obtain ⟨-, rfl⟩ | ⟨rfl, rfl, hc⟩ | ⟨rfl, rfl, rfl⟩ := decode_ok h
  · exact absurd rfl (hi a)
  · rw [causeOf_cmd]
    obtain ⟨hz, ⟨ho, hb, rfl⟩ | ⟨ho, hb, rfl⟩ | ⟨ho, rfl⟩ | ⟨ho, hb, rfl⟩ | ⟨ho, hb, rfl⟩⟩ := decodeCommand_ok hc <;>
      simp [needsAbsorb, *]
  · exact (causeOf_din v p).trans (by simp [needsAbsorb])

theorem causeOf_of_write_allowed {t : Transaction} {i : Instr} {p : Phase} (h : decode t = .ok i) (hi : ∀ a, i ≠ .rd a)
    (hp : needsAbsorb i = true → p = .absorb) : causeOf t p = none :=
  (causeOf_of_decode_write p h hi).trans (if_neg fun hn => hn.2 (hp hn.1))

theorem causeOf_of_write_rejected {t : Transaction} {i : Instr} {p : Phase} (h : decode t = .ok i)
    (hi : needsAbsorb i = true) (hp : p ≠ .absorb) : causeOf t p = some 3 := by
  have hrd : ∀ a, i ≠ .rd a := by
    rintro a rfl
    exact absurd hi Bool.false_ne_true
  exact (causeOf_of_decode_write p h hrd).trans (if_pos ⟨hi, hp⟩)

/-! ### The cause of a read is the error of the register read (R37) -/

/-- STATUS, ERRCODE, LEN_LO and LEN_HI stand below 0x20; the other readable registers are the digest and the hex ones. -/
theorem readable_cases {n : Nat} (h : n ∈ readableAddrs) : n = 0x04 ∨ n = 0x08 ∨ n = 0x10 ∨ n = 0x14 ∨
    (∃ j : Fin 5, n = 0x20 + 4 * j.val) ∨ ∃ j : Fin 10, n = 0x40 + 4 * j.val := by
  revert n
  decide

/-- A readable register answers, but those from 0x20 on only in DONE. -/
theorem busRead_of_readable {a : Addr} (s : State) (h : a.toNat ∈ readableAddrs) : ∃ v, busRead a s =
    if 0x20 ≤ a.toNat ∧ s.phase ≠ .done then .error .ePhase else .ok v := by
  -- The condition, as the model writes it for the registers from 0x20 on.
  have hcond {v : Word} (hhigh : 0x20 ≤ a.toNat) :
      (if 0x20 ≤ a.toNat ∧ s.phase ≠ .done then Except.error ProtocolError.ePhase else .ok v) =
        if digestReady s then .ok v else .error .ePhase := by
    simp [hhigh, digestReady_iff]
  obtain ha | ha | ha | ha | ⟨j, ha⟩ | ⟨j, ha⟩ := readable_cases h
  · obtain rfl := addr_eq ha
    exact ⟨_, busRead_status s⟩
  · obtain rfl := addr_eq ha
    exact ⟨_, busRead_errcode s⟩
  · obtain rfl := addr_eq ha
    exact ⟨_, busRead_lenLo s⟩
  · obtain rfl := addr_eq ha
    exact ⟨_, busRead_lenHi s⟩
  · exact ⟨s.chain[j], (addr_eq ha ▸ busRead_digest s j).trans (hcond (by omega)).symm⟩
  · exact ⟨hexWord s.chain j, (addr_eq ha ▸ busRead_hex s j).trans (hcond (by omega)).symm⟩

/-- The code an answer raises, none where it is no error. -/
def raisedCode {α : Type} : Except ProtocolError α → Option Nat
  | .ok _    => none
  | .error e => some e.code.toNat

theorem causeOf_read_eq_raisedCode (a : Addr) (v : Word) (s : State) :
    causeOf ⟨false, a, v⟩ s.phase = raisedCode (busRead a s) := by
  rw [causeOf_read]
  by_cases halign : a.toNat % 4 = 0
  case neg => rw [busRead_align s halign, if_pos halign]; rfl
  by_cases hr : a.toNat ∈ readableAddrs
  case neg => rw [busRead_addr s halign hr, if_neg (not_not_intro halign), if_pos hr]; rfl
  rw [if_neg (not_not_intro halign), if_neg (not_not_intro hr)]
  obtain ⟨w, hw⟩ := busRead_of_readable s hr
  rw [hw]
  split <;> rfl

theorem causeOf_of_decode_rd {t : Transaction} {a : Addr} (s : State) (h : decode t = .ok (.rd a)) :
    causeOf t s.phase = raisedCode (busRead a s) := by
  obtain ⟨we, a', v⟩ := t
  obtain ⟨rfl, hrd⟩ | ⟨-, -, hc⟩ | ⟨-, -, hw⟩ := decode_ok h
  · cases hrd
    exact causeOf_read_eq_raisedCode _ v s
  · obtain ⟨-, hcmd⟩ := decodeCommand_ok hc
    simp at hcmd
  · cases hw

/-! ### What a transaction does to the error state (R92 to R94) -/

/-- Two states with the same ERR, ERRCODE and fault mark. -/
def SameErrorState (s t : State) : Prop := s.err = t.err ∧ s.errcode = t.errcode ∧ s.faultMark = t.faultMark

theorem sameErrorState_raiseError (e : ProtocolError) (s : State) (r : Option Word) :
    SameErrorState (raiseError e (s.setRdata r)) (recorded e.code s) :=
  raiseError_eq_recorded e (s.setRdata r) ▸ ⟨rfl, rfl, rfl⟩

/-- A transaction has a cause and records it, is CLRERR, or leaves the error state. -/
theorem transact_cause_cases {t : Transaction} {s u : State} (h : transact t s = .next u) :
    (∃ e : ProtocolError, causeOf t s.phase = some e.code.toNat ∧ SameErrorState u (recorded e.code s)) ∨
    (causeOf t s.phase = none ∧ decode t = .ok .clrerr ∧ SameErrorState u (clearError s)) ∨
    (causeOf t s.phase = none ∧ decode t ≠ .ok .clrerr ∧ SameErrorState u s) := by
  obtain ⟨i, hd, hi⟩ | ⟨e, hd, rfl⟩ := transact_cases h
  case inr => exact .inl ⟨e, causeOf_of_decode_error s.phase hd, sameErrorState_raiseError e s none⟩
  rcases exec_cases hi with ⟨rfl, rfl⟩ | ⟨rfl, rfl⟩ | ⟨b, rfl, hp, rfl⟩ | ⟨rfl, hp, rfl⟩ | ⟨rfl, rfl⟩ |
    ⟨w, rfl, hp, rfl⟩ | ⟨a, v, rfl, hb, rfl⟩ | ⟨a, e, rfl, hb, rfl⟩ | ⟨hneeds, hp, rfl⟩
  -- NOP, INIT, PUSHB, FINAL, CLRERR and PUSHW where they are allowed.
  · exact .inr (.inr ⟨causeOf_of_write_allowed hd nofun nofun, by simp [hd], rfl, rfl, rfl⟩)
  · exact .inr (.inr ⟨causeOf_of_write_allowed hd nofun nofun, by simp [hd], rfl, rfl, rfl⟩)
  · exact .inr (.inr ⟨causeOf_of_write_allowed hd nofun fun _ => hp, by simp [hd], pushByte_err _ b,
      pushByte_errcode _ b, pushByte_faultMark _ b⟩)
  · exact .inr (.inr ⟨causeOf_of_write_allowed hd nofun fun _ => hp, by simp [hd], padFinal_err _, padFinal_errcode _,
      padFinal_faultMark _⟩)
  · exact .inr (.inl ⟨causeOf_of_write_allowed hd nofun nofun, hd, rfl, rfl, rfl⟩)
  · exact .inr (.inr ⟨causeOf_of_write_allowed hd nofun fun _ => hp, by simp [hd], pushBytes_err _ _,
      pushBytes_errcode _ _, pushBytes_faultMark _ _⟩)
  -- A read that answers, a read that raises, and a write outside its phase.
  · exact .inr (.inr ⟨(causeOf_of_decode_rd s hd).trans (congrArg raisedCode hb), by simp [hd], rfl, rfl, rfl⟩)
  · exact .inl ⟨e, (causeOf_of_decode_rd s hd).trans (congrArg raisedCode hb), sameErrorState_raiseError e s none⟩
  · have hi : needsAbsorb i = true := by
      obtain ⟨b, rfl⟩ | rfl | ⟨w, rfl⟩ := hneeds <;> rfl
    exact .inl ⟨.ePhase, causeOf_of_write_rejected hd hi hp, sameErrorState_raiseError .ePhase s none⟩

/-- No operation stops the machine (R91). -/
theorem exec_next (i : Instr) (s : State) : ∃ u, exec i s = .next u := by
  cases i <;> exact ⟨_, rfl⟩

theorem transact_next (t : Transaction) (s : State) : ∃ u, transact t s = .next u := by
  cases hd : decode t with
  | ok i => exact transact_ok s hd ▸ exec_next i (s.setRdata none)
  | error e => exact ⟨_, transact_error s hd⟩

end Sys2Proof.Machine

open Sys2Proof.Machine in
/-- Settles O30: every transaction has a next state, and `transact_cause_cases` says what it does to the error state. -/
theorem firstCauseIsRecorded : Obligations.FirstCauseIsRecorded := by
  intro t s
  obtain ⟨u, hu⟩ := transact_next t s
  refine ⟨u, hu, ?_⟩
  obtain ⟨e, hcause, herr, hcode, hmark⟩ | ⟨hcause, hd, herr, hcode, hmark⟩ | ⟨hcause, hd, herr, hcode, hmark⟩ :=
    transact_cause_cases hu
  · refine ⟨fun c hc => ⟨herr, hmark, ?_⟩, fun hnone => absurd (hcause.symm.trans hnone) nofun⟩
    obtain rfl : e.code.toNat = c := Option.some.inj (hcause.symm.trans hc)
    exact (congrArg BitVec.toNat hcode).trans (apply_ite BitVec.toNat _ _ _)
  · exact ⟨fun c hc => absurd (hcause.symm.trans hc) nofun,
      fun _ => ⟨hmark, fun _ => ⟨herr, hcode⟩, fun hne => absurd hd hne⟩⟩
  · exact ⟨fun c hc => absurd (hcause.symm.trans hc) nofun,
      fun _ => ⟨hmark, fun h => absurd h hd, fun _ => ⟨herr, hcode⟩⟩⟩

end

section
/-! O1, O2. The 41-bit word keeps the three signals, a command word keeps its fields, so the decoder takes every encoding
and gives the operation back, and the encoder gives back the canonical form of every transaction it takes. -/

namespace Sys2Proof
open Machine

/-! ### The fields of what the encoder builds -/

@[simp] theorem zeroOf_commandWord (imm8 opcode : Byte) : zeroOf (commandWord imm8 opcode) = 0 := by
  have himm := imm8.isLt
  have hop := opcode.isLt
  rw [zeroOf_eq_zero, commandWord_toNat]
  omega

@[simp] theorem imm8Of_commandWord (imm8 opcode : Byte) : imm8Of (commandWord imm8 opcode) = imm8 := by
  have himm := imm8.isLt
  have hop := opcode.isLt
  rw [← BitVec.toNat_inj, imm8Of_toNat, commandWord_toNat]
  omega

@[simp] theorem opcodeOf_commandWord (imm8 opcode : Byte) : opcodeOf (commandWord imm8 opcode) = opcode := by
  have hop := opcode.isLt
  rw [opcodeOf_eq, commandWord_toNat]
  omega

theorem wordOf_toNat (t : Transaction) :
    (wordOf t).toNat = (t.we.toNat * 2 ^ 8 + t.addr.toNat) * 2 ^ 32 + t.wdata.toNat := by
  rw [wordOf, append_toNat, append_toNat, BitVec.toNat_ofBool]

/-- The word of a transaction holds its three signals (R48). -/
@[simp] theorem transactionOf_wordOf (t : Transaction) : transactionOf (wordOf t) = t := by
  obtain ⟨we, a, v⟩ := t
  have ha := a.isLt
  have hv := v.isLt
  have hwe := we.toNat_lt
  have hword := wordOf_toNat ⟨we, a, v⟩
  simp only at hword
  simp only [transactionOf, Transaction.mk.injEq]
  refine ⟨?we, ?addr, ?wdata⟩
  case we => cases we <;> simp_all [BitVec.getLsbD, Nat.testBit_eq_decide_div_mod_eq] <;> omega
  case addr =>
    rw [← BitVec.toNat_inj, BitVec.extractLsb'_toNat, Nat.shiftRight_eq_div_pow, hword]
    omega
  case wdata =>
    rw [← BitVec.toNat_inj, BitVec.extractLsb'_toNat, Nat.shiftRight_eq_div_pow, hword]
    omega

/-! ### Decoding what the encoder builds -/

/-- The decoder takes the transaction of every operation as that operation (R51). -/
@[simp] theorem decode_encode (i : Instr) : decode (encode i) = .ok i := by
  rw [decode_ok_iff]
  cases i with
  | rd a => exact .inl ⟨rfl, rfl⟩
  | pushw w => exact .inr (.inr ⟨rfl, rfl, rfl⟩)
  | nop | init | pushb b | final | clrerr =>
    refine .inr (.inl ⟨rfl, rfl, ?_⟩)
    simp [decodeCommand_ok_iff, encode]

theorem encode_canonical (i : Instr) : (encode i).canonical = true := by
  cases i <;> rfl

/-! ### Encoding what the decoder takes -/

/-- A command word the decoder takes is the one the encoder builds (R49). -/
theorem encode_of_decodeCommand {v : Word} {i : Instr} (h : decodeCommand v = .ok i) : encode i = ⟨true, 0x00, v⟩ := by
  obtain ⟨hz, hfields⟩ := decodeCommand_ok h
  rw [← commandWord_fields v hz]
  obtain ⟨ho, hi, rfl⟩ | ⟨ho, hi, rfl⟩ | ⟨ho, rfl⟩ | ⟨ho, hi, rfl⟩ | ⟨ho, hi, rfl⟩ := hfields <;>
    simp [encode, *]

/-- A transaction the decoder takes is the one the encoder builds, but for the wdata of a read (R48). -/
theorem encode_of_decode {t : Transaction} {i : Instr} (h : decode t = .ok i) :
    encode i = if t.we then t else { t with wdata := 0 } := by
  obtain ⟨we, a, v⟩ := t
  obtain ⟨rfl, rfl⟩ | ⟨rfl, rfl, hc⟩ | ⟨rfl, rfl, rfl⟩ := decode_ok h
  · rfl
  · exact encode_of_decodeCommand hc
  · rfl

/-- The mask of the canonical form of a read keeps we and addr and clears wdata. -/
theorem transactionOf_clearWdata (w : TWord) :
    transactionOf (w &&& 0x1FF00000000#41) = { transactionOf w with wdata := 0 } := by
  have hmask : transactionOf 0x1FF00000000#41 = ⟨true, 0xFF, 0⟩ := rfl
  have haddr : (transactionOf w).addr &&& 0xFF#8 = (transactionOf w).addr := and_ones8 _
  rw [transactionOf_and, hmask]
  simp [haddr]

end Sys2Proof

open Sys2Proof in
/-- Settles O1: the word keeps the transaction of the operation, which decodes to it and is canonical. -/
theorem decodeOfEncodeIsTheOperation : Obligations.DecodeOfEncodeIsTheOperation := by
  intro i _
  rw [decodeWord, encodeWord, transactionOf_wordOf]
  exact ⟨decode_encode i, encode_canonical i⟩

open Sys2Proof in
/-- Settles O2: the word is that of the canonical transaction, and a word is given by its transaction. -/
theorem encodeOfDecodeIsTheCanonicalWord : Obligations.EncodeOfDecodeIsTheCanonicalWord := by
  intro w i h
  rw [← transactionOf_inj, encodeWord, transactionOf_wordOf, encode_of_decode h, apply_ite transactionOf,
    transactionOf_clearWdata]
  rfl

end

section
/-! O4 to O7, O19. The checks of a write on the numbers of its signals, and what an illegal one does (R38, R52, R53). -/

namespace Sys2Proof
open Machine

/-! ### A write to CMD, by its fields as numbers (R52) -/

theorem decodeCommand_opcode_error {v : Word} (h : 4 < v.toNat % 256) : decodeCommand v = .error .eOpcode :=
  if_pos ((lt_opcodeOf v 0x04).2 h)

/-- A known opcode with a reserved field that is not zero. -/
theorem decodeCommand_rsvd_error {v : Word} (hop : v.toNat % 256 ≤ 4)
    (h : v.toNat / 65536 ≠ 0 ∨ v.toNat % 256 ≠ 2 ∧ v.toNat / 256 % 256 ≠ 0) : decodeCommand v = .error .eRsvd := by
  have hknown : ¬ 0x04#8 < opcodeOf v := fun hlt => absurd ((lt_opcodeOf v 0x04).1 hlt) (Nat.not_lt.2 hop)
  rw [decodeCommand, if_neg hknown]
  by_cases hz : v.toNat / 65536 = 0
  · rw [if_neg (not_not_intro ((zeroOf_eq_zero v).2 hz)), if_pos]
    obtain ⟨h2, himm⟩ := h.resolve_left (not_not_intro hz)
    exact ⟨mt (opcodeOf_eq v 0x02).1 h2, mt (imm8Of_eq_zero v).1 himm⟩
  · rw [if_pos (mt (zeroOf_eq_zero v).1 hz)]

/-! ### The well-formed transactions are those the decoder takes (R53) -/

theorem decodeCommand_error_ne_ePhase {v : Word} {e : ProtocolError} (h : decodeCommand v = .error e) : e ≠ .ePhase := by
  unfold decodeCommand at h
  split_ifs at h <;> cases h <;> simp

/-- The decoder raises no E_PHASE: the phase is checked by the operation (R52). -/
theorem decode_error_ne_ePhase {t : Transaction} {e : ProtocolError} (h : decode t = .error e) : e ≠ .ePhase := by
  unfold decode at h
  split_ifs at h
  · cases h; simp
  · exact decodeCommand_error_ne_ePhase h
  · cases h; simp

/-- The decoder takes a command word when its fields pass the checks of R49 and R51. -/
theorem decodeCommand_takes_iff (v : Word) : (∃ i, decodeCommand v = .ok i) ↔
    v.toNat % 256 ≤ 4 ∧ v.toNat < 65536 ∧ (v.toNat % 256 = 2 ∨ v.toNat / 256 % 256 = 0) := by
  simp only [decodeCommand_ok_iff, zeroOf_eq_zero, imm8Of_eq_zero, opcodeOf_eq, exists_and_left, exists_or, exists_eq,
    and_true]
  simp only [BitVec.ofNat_eq_ofNat, BitVec.toNat_ofNat]
  omega

theorem wellFormed_iff_decodes (t : Transaction) : t.wellFormed = true ↔ ∃ i, decode t = .ok i := by
  obtain ⟨we, a, v⟩ := t
  cases we
  case false => simp [Transaction.wellFormed, decode]
  by_cases hcmd : a = 0x00#8
  · subst hcmd
    have hdec : decode ⟨true, 0x00#8, v⟩ = decodeCommand v := rfl
    rw [hdec, decodeCommand_takes_iff]
    simp [Transaction.wellFormed, Transaction.writable, Transaction.opcodeKnown, Transaction.zeroFieldClear,
      Transaction.imm8Clear, aligned, and_assoc]
  by_cases hdin : a = 0x0C#8
  · subst hdin
    simp [Transaction.wellFormed, Transaction.writable, Transaction.opcodeKnown, Transaction.zeroFieldClear,
      Transaction.imm8Clear, decode_ok_iff, aligned]
  · simp [Transaction.wellFormed, Transaction.writable, decode_ok_iff, hcmd, hdin]

end Sys2Proof

namespace Sys2Proof.Machine

/-! ### Which transactions are writes -/

theorem write_of_decode_error {t : Transaction} {e : ProtocolError} (h : decode t = .error e) : t.we = true := by
  cases hwe : t.we
  · simp [decode, hwe] at h
  · rfl

theorem read_of_decode_rd {t : Transaction} {a : Addr} (h : decode t = .ok (.rd a)) : t.we = false ∧ t.addr = a := by
  have henc := encode_of_decode h
  cases hwe : t.we <;> rw [hwe] at henc
  · exact ⟨rfl, (congrArg Transaction.addr henc).symm⟩
  · cases hwe.symm.trans (congrArg Transaction.we henc).symm

theorem write_of_decode_needsAbsorb {t : Transaction} {i : Instr} (h : decode t = .ok i) (hi : needsAbsorb i = true) :
    t.we = true := by
  obtain ⟨-, rfl⟩ | ⟨hwe, -, -⟩ | ⟨hwe, -, -⟩ := decode_ok h
  · cases hi
  · exact hwe
  · exact hwe

theorem needsAbsorb_of_write {i : Instr} (h : (∃ b, i = .pushb b) ∨ i = .final ∨ ∃ w, i = .pushw w) :
    needsAbsorb i = true := by
  obtain ⟨b, rfl⟩ | rfl | ⟨w, rfl⟩ := h <;> rfl

/-! ### What a transaction that is legal, or that raises, leaves -/

/-- The transaction of an operation runs it. -/
theorem transact_encode (i : Instr) (s : State) : transact (encode i) s = exec i (s.setRdata none) :=
  transact_ok s (decode_encode i)

/-- A write to CMD whose fields are those of a command runs it. -/
theorem transact_command {v : Word} {imm8 opcode : Byte} {i : Instr} (s : State)
    (hi : encode i = ⟨true, 0x00, commandWord imm8 opcode⟩) (hz : v.toNat / 65536 = 0)
    (himm : v.toNat / 256 % 256 = imm8.toNat) (hop : v.toNat % 256 = opcode.toNat) :
    transact ⟨true, 0x00, v⟩ s = exec i (s.setRdata none) := by
  have hv : v = commandWord imm8 opcode := by
    rw [← BitVec.toNat_inj, commandWord_toNat]
    omega
  rw [hv, ← hi, transact_encode]

theorem transact_recorded {t : Transaction} {e : ProtocolError} (s : State) (h : decode t = .error e) :
    transact t s = .next (recorded e.code (s.setRdata none)) :=
  (transact_error s h).trans (congrArg _ (raiseError_eq_recorded e _))

theorem raiseError_setRdata (e : ProtocolError) (s : State) (r : Option Word) :
    raiseError e (s.setRdata r) = (raiseError e s).setRdata r := by
  rw [raiseError_eq, raiseError_eq]
  rfl

/-- A transaction raises, which leaves the rest but the read data (0 for a read), or it leaves the fault mark. -/
theorem transact_raise_cases {t : Transaction} {s u : State} (h : transact t s = .next u) :
    (∃ e, u = (raiseError e s).setRdata (if t.we then none else some 0)) ∨ u.faultMark = s.faultMark := by
  obtain ⟨i, hd, hi⟩ | ⟨e, hd, rfl⟩ := transact_cases h
  case inr =>
    rw [write_of_decode_error hd]
    exact .inl ⟨e, raiseError_setRdata e s none⟩
  rcases exec_cases hi with ⟨_, rfl⟩ | ⟨_, rfl⟩ | ⟨_, _, _, rfl⟩ | ⟨_, _, rfl⟩ | ⟨_, rfl⟩ | ⟨_, _, _, rfl⟩ |
    ⟨_, _, _, _, rfl⟩ | ⟨a, e, rfl, _, rfl⟩ | ⟨hw, _, rfl⟩
  -- An operation that is allowed, or a read that answers, raises nothing.
  · exact .inr rfl
  · exact .inr rfl
  · exact .inr (pushByte_faultMark _ _)
  · exact .inr (padFinal_faultMark _)
  · exact .inr rfl
  · exact .inr (pushBytes_faultMark _ _)
  · exact .inr rfl
  · rw [(read_of_decode_rd hd).1, raiseError_setRdata]
    exact .inl ⟨e, rfl⟩
  · rw [write_of_decode_needsAbsorb hd (needsAbsorb_of_write hw)]
    exact .inl ⟨.ePhase, raiseError_setRdata .ePhase s none⟩

/-- A transaction that sets the fault mark changes nothing else but the error state and the read data (R93). -/
theorem transact_marks {t : Transaction} {s u : State} (h : transact t s = .next u) (hs : s.faultMark = false)
    (hu : u.faultMark = true) : u = { s with
      err := true, errcode := u.errcode, faultMark := true, rdata := if t.we then none else some 0 } := by
  obtain ⟨e, rfl⟩ | hm := transact_raise_cases h
  · rw [raiseError_eq]
    rfl
  · cases hs.symm.trans (hm.symm.trans hu)

end Sys2Proof.Machine

open Sys2Proof Sys2Proof.Machine in
/-- Settles O4: the checks of `decodeCommand` on numbers, then the command the fields are those of. -/
theorem commandWriteChecksInOrder : Obligations.CommandWriteChecksInOrder := by
  intro v s op imm rsv r s'
  have hrejects {e : ProtocolError} (h : decodeCommand v = .error e) : r = .next (recorded e.code s') :=
    transact_recorded s h
  have hcommand {i : Instr} (c : Byte) (hi : encode i = ⟨true, 0x00, commandWord 0 c⟩) (hz : rsv = 0) (himm : imm = 0)
      (hop : op = c.toNat) : r = exec i s' := transact_command s hi hz himm hop
  have hpushb (hz : rsv = 0) (hop : op = 2) : r = exec (.pushb (BitVec.ofNat 8 imm)) s' :=
    transact_command s rfl hz (BitVec.toNat_ofNat imm 8 ▸ (Nat.mod_mod _ 256).symm) hop
  refine ⟨fun hop => hrejects (decodeCommand_opcode_error hop),
    fun hop hz => hrejects (decodeCommand_rsvd_error hop (.inl hz)),
    fun hop _ h2 himm => hrejects (decodeCommand_rsvd_error hop (.inr ⟨h2, himm⟩)),
    hcommand 0x00 rfl, hcommand 0x01 rfl, hpushb, hcommand 0x03 rfl, hcommand 0x04 rfl, ?phase⟩
  case phase =>
    rintro hp hz (hop | ⟨hop, himm⟩)
    · exact (hpushb hz hop).trans (exec_pushb_rejects _ hp)
    · exact (hcommand 0x03 rfl hz himm hop).trans (exec_final_rejects hp)

open Sys2Proof Sys2Proof.Machine in
/-- Settles O5: the checks of `decode` on the address, and `transact_marks`. -/
theorem writeChecksInOrder : Obligations.WriteChecksInOrder := by
  intro a v s r s'
  refine ⟨fun h => transact_recorded s (e := .eAlign) ?misaligned, ?cmd, ?din, fun h h0 hc =>
    transact_recorded s (e := .eAddr) ?elsewhere, fun _ => transact_marks⟩
  case misaligned => simp [decode, (not_aligned_iff a).2 h]
  case cmd =>
    intro h
    obtain rfl := addr_eq h
    rfl
  case din =>
    intro h
    obtain rfl := addr_eq h
    exact transact_encode (.pushw v) s
  case elsewhere =>
    have hcmd : a ≠ 0x00#8 := fun ha => h0 (congrArg BitVec.toNat ha)
    have hdin : a ≠ 0x0C#8 := fun ha => hc (congrArg BitVec.toNat ha)
    simp [decode, (aligned_iff a).2 h, hcmd, hdin]

open Sys2Proof Sys2Proof.Machine in
/-- Settles O6: `wellFormed_iff_decodes`, and the decoder's error is recorded. -/
theorem illegalTransactionsOnlyRecordAnError : Obligations.IllegalTransactionsOnlyRecordAnError := by
  refine fun t => ⟨wellFormed_iff_decodes t, fun hill => ?_⟩
  cases hd : decode t with
  | ok i => exact absurd ((wellFormed_iff_decodes t).2 ⟨i, hd⟩) (hill ▸ Bool.false_ne_true)
  | error e => exact ⟨e, decode_error_ne_ePhase hd, rfl, fun s => transact_error s hd⟩

open Sys2Proof in
/-- Settles O7: canonical words decode by `decode_encode`, and the others are evaluated. -/
theorem sampleWordsDecode : Obligations.SampleWordsDecode :=
  ⟨decode_encode .nop, decode_encode .init, decode_encode (.pushb 0x61), decode_encode .final, decode_encode .clrerr,
    decode_encode (.pushw 0x54686520), decode_encode (.rd 0x64), rfl, rfl⟩

open Sys2Proof Sys2Proof.Machine in
/-- Settles O19: NOP is the identity, and opcode 0 with another bit set has a reserved field that is not zero. -/
theorem nopLeavesTheState : Obligations.NopLeavesTheState := by
  refine fun s => ⟨rfl, rfl, fun v hop hrest => ?_⟩
  have hrsvd : decodeCommand v = .error .eRsvd := decodeCommand_rsvd_error (by omega) (by omega)
  exact transact_recorded (t := ⟨true, 0x00, v⟩) s hrsvd

end

section
/-! O31, O34, O38, O39. A run is its steps, and a step is a reset or a transaction after the host's list is shortened, so a
predicate that resets and transactions keep holds along every run. The invariant of R24 and the fault mark are such. -/

namespace Sys2Proof.Machine

/-! ### Runs -/

theorem steps_zero (s : State) : steps 0 s = .next s := rfl

theorem steps_succ {s u : State} (k : Nat) (h : step s = .next u) : steps (k + 1) s = steps k u := by
  rw [steps, h]

theorem perform_next (e : HostEvent) (s : State) : ∃ u, perform e s = .next u := by
  cases e with
  | reset => exact ⟨_, rfl⟩
  | transaction t => exact transact_next t s

theorem step_next (s : State) : ∃ u, step s = .next u := by
  rw [step]
  split
  · exact ⟨s, rfl⟩
  · exact perform_next _ _

theorem steps_succ_cases {k : Nat} {s t : State} (h : steps (k + 1) s = .next t) :
    ∃ u, step s = .next u ∧ steps k u = .next t := by
  obtain ⟨u, hu⟩ := step_next s
  exact ⟨u, hu, steps_succ k hu ▸ h⟩

/-- A predicate that every step keeps holds at the end of every run. -/
theorem steps_keeps {P : State → Prop} (hstep : ∀ s t, P s → step s = .next t → P t) {k : Nat} {s t : State} (hs : P s)
    (h : steps k s = .next t) : P t := by
  induction k generalizing s with
  | zero => cases h; exact hs
  | succ k ih =>
    obtain ⟨u, hu, ht⟩ := steps_succ_cases h
    exact ih (hstep s u hs hu) ht

/-- A predicate that does not speak of the host's list is kept by every step when resets and transactions keep it. -/
theorem step_keeps {P : State → Prop} (hhost : ∀ s q, P s → P (s.setHost q)) (hreset : ∀ s, P s → P (resetCore s))
    (htransact : ∀ x s t, P s → transact x s = .next t → P t) {s t : State} (hs : P s) (h : step s = .next t) : P t := by
  obtain ⟨-, rfl⟩ | ⟨rest, -, rfl⟩ | ⟨x, rest, -, hx⟩ := step_cases h
  · exact hs
  · exact hreset _ (hhost s rest hs)
  · exact htransact x _ t (hhost s rest hs) hx

/-! ### The invariant of R24 -/

theorem resetCore_inv (s : State) : (resetCore s).Inv :=
  ⟨fun _ => rfl, nofun, nofun, nofun, fun _ => ⟨rfl, rfl⟩, nofun⟩

theorem atReset_inv (n : Nat) : (State.atReset n).Inv :=
  ⟨fun _ => rfl, nofun, nofun, nofun, fun _ => ⟨rfl, rfl⟩, nofun⟩

namespace State.Inv

variable {s : State}

theorem setRdata (h : s.Inv) (r : Option Word) : (s.setRdata r).Inv := h
theorem setHost (h : s.Inv) (q : List HostEvent) : (s.setHost q).Inv := h

theorem raiseError (h : s.Inv) (e : ProtocolError) : (raiseError e s).Inv := by
  obtain ⟨-, hcode, habsorb, hdone, hidle, -⟩ := h
  have hrange : 1 ≤ e.code.toNat ∧ e.code.toNat ≤ 5 := by cases e <;> decide
  refine ⟨?_, ?_, by simpa using habsorb, by simpa using hdone, by simpa using hidle, by simp⟩
  · simp
  · intro _
    rw [raiseError_errcode]
    split
    · exact hcode ‹_›
    · exact hrange

theorem clearError (h : s.Inv) : (clearError s).Inv := by
  obtain ⟨-, -, habsorb, hdone, hidle, -⟩ := h
  exact ⟨fun _ => rfl, nofun, habsorb, hdone, hidle, nofun⟩

/-- BUFLEN and LEN count the byte together (R24 item 2). -/
theorem pushByte (h : s.Inv) (hp : s.phase = .absorb) (b : Byte) : (pushByte b s).Inv := by
  obtain ⟨hnone, hcode, habsorb, -, -, hmark⟩ := h
  have hcount := habsorb hp
  refine ⟨by simpa using hnone, by simpa using hcode, ?_, by simp [hp], by simp [hp], by simpa using hmark⟩
  intro _
  rw [pushByte_buflen_val, pushByte_len, BitVec.toNat_add, hcount]
  simp only [BitVec.ofNat_eq_ofNat, BitVec.toNat_ofNat]
  omega

theorem pushBytes (h : s.Inv) (hp : s.phase = .absorb) (bs : List Byte) : (pushBytes bs s).Inv := by
  induction bs generalizing s with
  | nil => exact h
  | cons b bs ih => exact ih (h.pushByte hp b) ((pushByte_phase s b).trans hp)

theorem init (h : s.Inv) : ((((s.setChain iv).setBuflen 0).setLen 0).setPhase .absorb).Inv := by
  obtain ⟨hnone, hcode, -, -, -, hmark⟩ := h
  exact ⟨hnone, hcode, fun _ => rfl, nofun, nofun, hmark⟩

theorem final (h : s.Inv) : (((padFinal s).setBuflen 0).setPhase .done).Inv := by
  obtain ⟨hnone, hcode, -, -, -, hmark⟩ := h
  exact ⟨by simpa using hnone, by simpa using hcode, nofun, fun _ => rfl, nofun, by simpa using hmark⟩

end State.Inv

theorem exec_keeps_inv {i : Instr} {s t : State} (hs : s.Inv) (h : exec i s = .next t) : t.Inv := by
  rcases exec_cases h with ⟨_, rfl⟩ | ⟨_, rfl⟩ | ⟨b, _, hp, rfl⟩ | ⟨_, _, rfl⟩ | ⟨_, rfl⟩ | ⟨w, _, hp, rfl⟩ |
    ⟨_, _, _, _, rfl⟩ | ⟨_, e, _, _, rfl⟩ | ⟨_, _, rfl⟩
  · exact hs
  · exact hs.init
  · exact hs.pushByte hp b
  · exact hs.final
  · exact hs.clearError
  · exact hs.pushBytes hp _
  · exact hs.setRdata _
  · exact (hs.raiseError e).setRdata _
  · exact hs.raiseError _

theorem transact_keeps_inv {x : Transaction} {s t : State} (hs : s.Inv) (h : transact x s = .next t) : t.Inv := by
  obtain ⟨i, -, hi⟩ | ⟨e, -, rfl⟩ := transact_cases h
  · exact exec_keeps_inv (hs.setRdata none) hi
  · exact (hs.setRdata none).raiseError e

/-! ### The fault mark (R96) -/

theorem transact_keeps_faultMark {x : Transaction} {s t : State} (hs : s.faultMark = true) (h : transact x s = .next t) :
    t.faultMark = true := by
  obtain ⟨e, rfl⟩ | hm := transact_raise_cases h
  · exact raiseError_faultMark s e
  · exact hm.trans hs

theorem step_keeps_faultMark {s t : State} (hs : s.faultMark = true) (h : step s = .next t) : t.faultMark = true :=
  step_keeps (P := fun s => s.faultMark = true) (fun _ _ hs => hs) (fun _ hs => hs) (fun _ _ _ => transact_keeps_faultMark)
    hs h

/-- The error flag stands under the fault mark: no protocol error is recorded without it. -/
def ErrIsMarked (s : State) : Prop := s.err = true → s.faultMark = true

theorem transact_keeps_errIsMarked {x : Transaction} {s t : State} (hs : ErrIsMarked s) (h : transact x s = .next t) :
    ErrIsMarked t := by
  obtain ⟨e, -, -, -, hmark⟩ | ⟨-, -, herr, -, -⟩ | ⟨-, -, herr, -, hmark⟩ := transact_cause_cases h
  · exact fun _ => hmark
  · exact fun ht => absurd (herr.symm.trans ht) nofun
  · exact fun ht => hmark.trans (hs (herr.symm.trans ht))

theorem step_keeps_errIsMarked {s t : State} (hs : ErrIsMarked s) (h : step s = .next t) : ErrIsMarked t :=
  step_keeps (fun _ _ hs => hs) (fun _ _ => nofun) (fun _ _ _ => transact_keeps_errIsMarked) hs h

end Sys2Proof.Machine

open Sys2Proof.Machine in
/-- Settles O38: PHASE is IDLE, the error state clear and the counts 0. -/
theorem resetMeetsTheInvariant : Obligations.ResetMeetsTheInvariant :=
  ⟨atReset_inv 0, atReset_inv, resetCore_inv⟩

open Sys2Proof.Machine in
/-- Settles O39: resets and transactions keep the invariant. -/
theorem everyStepKeepsTheInvariant : Obligations.EveryStepKeepsTheInvariant :=
  fun _ _ => step_keeps (fun _ q hs => hs.setHost q) (fun s _ => resetCore_inv s) (fun _ _ _ => transact_keeps_inv)

open Sys2Proof.Machine in
/-- Settles O34, by induction on the length of the run: every step has a next state. -/
theorem noRunEverStops : Obligations.NoRunEverStops := by
  intro k
  induction k with
  | zero => exact fun s => ⟨s, rfl⟩
  | succ k ih =>
    intro s
    obtain ⟨u, hu⟩ := step_next s
    exact steps_succ k hu ▸ ih u

open Sys2Proof.Machine in
/-- Settles O31: every step keeps the mark, and keeps the error flag under it. -/
theorem faultMarkIsSticky : Obligations.FaultMarkIsSticky := by
  intro k s t h
  refine ⟨fun hs => steps_keeps (P := fun s => s.faultMark = true) (fun _ _ => step_keeps_faultMark) hs h,
    fun hmark hs => ?_⟩
  have hstart : ErrIsMarked s := fun herr => absurd (hs.symm.trans herr) nofun
  have hmarked : ErrIsMarked t := steps_keeps (fun _ _ => step_keeps_errIsMarked) hstart h
  exact eq_false_of_ne_true fun herr => absurd (hmark.symm.trans (hmarked herr)) nofun

end

section
/-! O26, O32, O33, O35 to O37. What a register read depends on, what it leaves, and which operations write which fields. -/

namespace Sys2Proof.Machine

/-! ### What a register read depends on (R37) -/

theorem digestReady_congr {s t : State} (h : s.phase = t.phase) : digestReady s = digestReady t := by
  rw [digestReady, digestReady, h]

/-- The registers that answer in DONE only answer alike where PHASE is the same, and H where it is DONE. -/
theorem digestAnswer_congr {s t : State} (hphase : s.phase = t.phase) (hchain : s.phase = .done → s.chain = t.chain)
    (f : Chain → Word) : (if digestReady s then Except.ok (f s.chain) else .error ProtocolError.ePhase) =
      if digestReady t then .ok (f t.chain) else .error .ePhase := by
  rw [digestReady_congr hphase]
  split
  · rw [hchain (hphase.trans ((digestReady_iff t).1 ‹_›))]
  · rfl

/-- A register read depends on PHASE and LEN, at 0x04 on STATUS, at 0x08 on ERRCODE, and in DONE on H. -/
theorem busRead_congr {s t : State} {a : Addr} (hphase : s.phase = t.phase) (hlen : s.len = t.len)
    (hstatus : a = 0x04 → statusWord s = statusWord t) (hcode : a = 0x08 → s.errcode = t.errcode)
    (hchain : s.phase = .done → s.chain = t.chain) : busRead a s = busRead a t := by
  by_cases halign : a.toNat % 4 = 0
  case neg => rw [busRead_align s halign, busRead_align t halign]
  by_cases hr : a.toNat ∈ readableAddrs
  case neg => rw [busRead_addr s halign hr, busRead_addr t halign hr]
  obtain ha | ha | ha | ha | ⟨j, ha⟩ | ⟨j, ha⟩ := readable_cases hr <;> obtain rfl := addr_eq ha
  · exact congrArg Except.ok (hstatus rfl)
  · exact congrArg (fun c => Except.ok (0#29 ++ c)) (hcode rfl)
  · exact congrArg (fun n : Dword => Except.ok (n.extractLsb' 0 32)) hlen
  · exact congrArg (fun n : Dword => Except.ok (n.extractLsb' 32 32)) hlen
  · rw [busRead_digest, busRead_digest]
    exact digestAnswer_congr hphase hchain fun h => h[j]
  · rw [busRead_hex, busRead_hex]
    exact digestAnswer_congr hphase hchain fun h => hexWord h j

theorem statusWord_congr {s t : State} (hphase : s.phase = t.phase) (herr : s.err = t.err)
    (hbuflen : s.buflen = t.buflen) : statusWord s = statusWord t := by
  rw [statusWord, statusWord, hphase, herr, hbuflen]

/-- The error of a code, as the table of R92 numbers them. -/
def errorOfCode (c : BitVec 3) : ProtocolError :=
  if c = 1 then .eOpcode else if c = 2 then .eRsvd else if c = 3 then .ePhase else if c = 4 then .eAddr else .eAlign

theorem errorOfCode_code (e : ProtocolError) : errorOfCode e.code = e := by
  cases e <;> rfl

/-- The five errors have five codes (R92). -/
theorem code_injective : Function.Injective ProtocolError.code := Function.LeftInverse.injective errorOfCode_code

/-- The error a register read raises depends on PHASE only. -/
theorem busRead_error_congr {s t : State} {a : Addr} {e : ProtocolError} (hphase : t.phase = s.phase)
    (h : busRead a s = .error e) : busRead a t = .error e := by
  have hcause : raisedCode (busRead a t) = raisedCode (busRead a s) := by
    rw [← causeOf_read_eq_raisedCode a 0, ← causeOf_read_eq_raisedCode a 0, hphase]
  rw [h] at hcause
  cases ht : busRead a t with
  | ok v => rw [ht] at hcause; cases hcause
  | error e' =>
    rw [ht] at hcause
    rw [@code_injective e' e (BitVec.eq_of_toNat_eq (Option.some.inj hcause))]

/-! ### Reads of a core at rest after a reset (R33) -/

/-- The values R33 states. -/
structure AtRest (s : State) : Prop where
  phase   : s.phase = .idle
  err     : s.err = false
  errcode : s.errcode = 0
  buflen  : s.buflen = 0
  len     : s.len = 0

theorem resetCore_atRest (s : State) : AtRest (resetCore s) := ⟨rfl, rfl, rfl, rfl, rfl⟩
theorem reset_atRest : AtRest State.reset := ⟨rfl, rfl, rfl, rfl, rfl⟩

namespace AtRest

variable {s : State} (h : AtRest s)
include h

theorem not_done : s.phase ≠ .done := by
  rw [h.phase]
  nofun

theorem statusWord : statusWord s = 0 := by
  rw [Machine.statusWord, h.phase, h.err, h.buflen]
  rfl

/-- STATUS, ERRCODE, LEN_LO and LEN_HI read 0. -/
theorem busRead_zero {a : Addr} (ha : a.toNat ∈ [0x04, 0x08, 0x10, 0x14]) : busRead a s = .ok 0 := by
  simp only [List.mem_cons, List.not_mem_nil, or_false] at ha
  obtain ha | ha | ha | ha := ha <;> obtain rfl := addr_eq ha
  · exact congrArg _ h.statusWord
  · exact congrArg (fun c => Except.ok (0#29 ++ c)) h.errcode
  · exact congrArg (fun n : Dword => Except.ok (n.extractLsb' 0 32)) h.len
  · exact congrArg (fun n : Dword => Except.ok (n.extractLsb' 32 32)) h.len

end AtRest

/-- CMD and DIN hold nothing. -/
theorem busRead_writeOnly {a : Addr} (ha : a = 0x00 ∨ a = 0x0C) (s : State) : busRead a s = .error .eAddr := by
  obtain rfl | rfl := ha <;> rfl

end Sys2Proof.Machine

open Sys2Proof.Machine in
/-- Settles O26: STATUS as a number, and a write to it has no register to go to. -/
theorem statusWordLayout : Obligations.StatusWordLayout := by
  refine ⟨fun s => ⟨statusWord s, exec_rd_of_ok (busRead_status s), ?layout⟩,
    fun v s => transact_recorded (t := ⟨true, 0x04, v⟩) (e := .eAddr) s (by simp [Sys2Proof.decode, aligned]),
    exec_rd_of_ok (reset_atRest.busRead_zero (by decide))⟩
  case layout =>
    rw [statusWord_toNat]
    cases s.phase <;> rfl

open Sys2Proof Sys2Proof.Machine in
/-- Settles O32: the cases of `step`, and a table word presents its transaction at the head of the host's list. -/
theorem stepRunsTheDecodedOperation : Obligations.StepRunsTheDecodedOperation := by
  intro s rest
  refine ⟨fun t i h hd => (step_transaction h).trans (transact_ok _ hd),
    fun t e h hd => (step_transaction h).trans (transact_error _ hd), step_reset, step_empty, ?tableWord⟩
  case tableWord =>
    intro w i hd
    have hword : s.withFetchWord 48 w.toNat = present (transactionOf w) s := by
      have hw := w.isLt
      have hmod : w.toNat % 2 ^ 48 = w.toNat := Nat.mod_eq_of_lt (by omega)
      rw [State.withFetchWord, tableWord, hmod, if_pos hw, BitVec.ofNat_toNat, BitVec.setWidth_eq]
    rw [hword]
    exact (step_transaction rfl).trans (transact_ok _ hd)

open Sys2Proof.Machine in
/-- Settles O33: a reset leaves the core at rest, and at rest the reads are those of R33. -/
theorem resetLeavesTheStatedValues : Obligations.ResetLeavesTheStatedValues := by
  intro s rest h
  refine ⟨resetCore (s.setHost rest), step_reset h, rfl, fun u hu => ?_⟩
  have hrest : AtRest u := by
    obtain rfl | rfl := hu
    · exact resetCore_atRest _
    · exact reset_atRest
  have hnd := hrest.not_done
  exact ⟨hrest.phase, hrest.err, hrest.errcode, hrest.buflen, hrest.len,
    fun a ha => exec_rd_of_ok (hrest.busRead_zero ha),
    fun j => (exec_rd_of_digestReady (busRead_digest u j)).2 hnd,
    fun j => (exec_rd_of_digestReady (busRead_hex u j)).2 hnd,
    fun a ha => exec_rd_of_error (busRead_writeOnly ha u),
    fun _ _ _ => busRead_congr rfl rfl (fun _ => rfl) (fun _ => rfl) fun hd => absurd hd hnd⟩

open Sys2Proof.Machine in
/-- Settles O37: a read that answers reads the same fields again, and one that raises raises the same error again, which
is then recorded. -/
theorem readIsIdempotent : Obligations.ReadIsIdempotent := by
  intro a s t h
  cases hb : busRead a s with
  | ok v =>
    cases (exec_rd_of_ok hb).symm.trans h
    exact exec_rd_of_ok hb
  | error e =>
    cases (exec_rd_of_error hb).symm.trans h
    have hagain : busRead a { recorded e.code s with rdata := some 0#32 } = .error e := busRead_error_congr (s := s) rfl hb
    -- ERR is 1 by now, so recording the error again keeps ERRCODE.
    exact exec_rd_of_error hagain

end

section
/-! O35, O36. Which operations write which fields (R14, R20 to R23, R90). -/

namespace Sys2Proof.Machine

/-- What an operation makes of PHASE (R23). -/
theorem exec_phase_cases {i : Instr} {s t : State} (h : exec i s = .next t) :
    (i = .init ∧ t.phase = .absorb) ∨ (i = .final ∧ s.phase = .absorb ∧ t.phase = .done) ∨
    (i ≠ .init ∧ ¬(i = .final ∧ s.phase = .absorb) ∧ t.phase = s.phase) := by
  rcases exec_cases h with ⟨rfl, rfl⟩ | ⟨rfl, rfl⟩ | ⟨b, rfl, hp, rfl⟩ | ⟨rfl, hp, rfl⟩ | ⟨rfl, rfl⟩ | ⟨w, rfl, hp, rfl⟩ |
    ⟨a, v, rfl, _, rfl⟩ | ⟨a, e, rfl, _, rfl⟩ | ⟨hw, hp, rfl⟩
  · exact .inr (.inr ⟨nofun, by simp, rfl⟩)
  · exact .inl ⟨rfl, rfl⟩
  · exact .inr (.inr ⟨nofun, by simp, pushByte_phase s b⟩)
  · exact .inr (.inl ⟨rfl, hp, rfl⟩)
  · exact .inr (.inr ⟨nofun, by simp, rfl⟩)
  · exact .inr (.inr ⟨nofun, by simp, pushBytes_phase s _⟩)
  · exact .inr (.inr ⟨nofun, by simp, rfl⟩)
  · exact .inr (.inr ⟨nofun, by simp, raiseError_phase s e⟩)
  · have hinit : i ≠ .init := by
      rintro rfl
      exact absurd (needsAbsorb_of_write hw) nofun
    exact .inr (.inr ⟨hinit, fun hf => hp hf.2, raiseError_phase s _⟩)

/-- Two states with the same message state: H, BUF, BUFLEN and LEN. -/
def SameMessage (s t : State) : Prop := t.chain = s.chain ∧ t.buf = s.buf ∧ t.buflen = s.buflen ∧ t.len = s.len

theorem sameMessage_raiseError (e : ProtocolError) (s : State) : SameMessage s (raiseError e s) :=
  ⟨raiseError_chain s e, raiseError_buf s e, raiseError_buflen s e, raiseError_len s e⟩

/-- What an operation makes of the message state. -/
theorem exec_message_cases {i : Instr} {s t : State} (h : exec i s = .next t) : SameMessage s t ∨
    (i = .init ∧ t.buf = s.buf) ∨
    (∃ b, i = .pushb b ∧ s.phase = .absorb ∧ t = pushByte b s) ∨
    (i = .final ∧ s.phase = .absorb ∧ t.len = s.len) ∨
    (∃ w, i = .pushw w ∧ s.phase = .absorb ∧ t = pushBytes (imm32Bytes w) s) := by
  rcases exec_cases h with ⟨_, rfl⟩ | ⟨hi, rfl⟩ | hpushb | ⟨hi, hp, rfl⟩ | ⟨_, rfl⟩ | hpushw | ⟨_, _, _, _, rfl⟩ |
    ⟨_, e, _, _, rfl⟩ | ⟨_, _, rfl⟩
  · exact .inl ⟨rfl, rfl, rfl, rfl⟩
  · exact .inr (.inl ⟨hi, rfl⟩)
  · exact .inr (.inr (.inl hpushb))
  · exact .inr (.inr (.inr (.inl ⟨hi, hp, padFinal_len s⟩)))
  · exact .inl ⟨rfl, rfl, rfl, rfl⟩
  · exact .inr (.inr (.inr (.inr hpushw)))
  · exact .inl ⟨rfl, rfl, rfl, rfl⟩
  · exact .inl (sameMessage_raiseError e s)
  · exact .inl (sameMessage_raiseError .ePhase s)

/-- The read data is a read's only. -/
theorem exec_rdata {i : Instr} {s t : State} (h : exec i s = .next t) (hr : t.rdata ≠ s.rdata) : ∃ a, i = .rd a := by
  rcases exec_cases h with ⟨_, rfl⟩ | ⟨_, rfl⟩ | ⟨b, _, _, rfl⟩ | ⟨_, _, rfl⟩ | ⟨_, rfl⟩ | ⟨w, _, _, rfl⟩ |
    ⟨a, _, hi, _⟩ | ⟨a, _, hi, _⟩ | ⟨_, _, rfl⟩
  · exact absurd rfl hr
  · exact absurd rfl hr
  · exact absurd (pushByte_rdata s b) hr
  · exact absurd (padFinal_rdata s) hr
  · exact absurd rfl hr
  · exact absurd (pushBytes_rdata s _) hr
  · exact ⟨a, hi⟩
  · exact ⟨a, hi⟩
  · exact absurd (raiseError_rdata s _) hr

end Sys2Proof.Machine

open Sys2Proof.Machine in
/-- Settles O35: `exec_phase_cases` for the operation decoded; a raise leaves PHASE. -/
theorem onlyInitFinalAndResetChangePhase : Obligations.OnlyInitFinalAndResetChangePhase := by
  intro e s t h
  cases e with
  | reset => cases h; exact .inl ⟨rfl, rfl⟩
  | transaction x =>
    refine .inr ⟨x, rfl, ?_⟩
    obtain ⟨i, hd, hi⟩ | ⟨e, hd, rfl⟩ := transact_cases h
    · simp only [hd, ne_eq, Except.ok.injEq]
      exact exec_phase_cases (s := s.setRdata none) hi
    · exact .inr (.inr ⟨hd ▸ nofun, fun hf => absurd (hd.symm.trans hf.1) nofun, raiseError_phase _ e⟩)

open Sys2Proof.Machine in
/-- Settles O36: the operations of `exec_message_cases`; H changes at a byte that fills BUF only. -/
theorem whoWritesTheMessageState : Obligations.WhoWritesTheMessageState := by
  intro i s t h
  obtain ⟨hhost, hdraws⟩ := exec_host_draws h
  have hrest : t.host = s.host ∧ t.draws = s.draws ∧ (t.rdata ≠ s.rdata → ∃ a, i = .rd a) :=
    ⟨hhost, hdraws, exec_rdata h⟩
  obtain ⟨hchain, hbuf, hbuflen, hlen⟩ | ⟨hi, hbuf⟩ | ⟨b, hi, hp, rfl⟩ | ⟨hi, hp, hlen⟩ | ⟨w, hi, hp, rfl⟩ :=
    exec_message_cases h
  · exact ⟨fun hne => absurd hchain hne, fun hne => absurd hbuf hne, fun hne => absurd hbuflen hne,
      fun hne => absurd hlen hne, hrest⟩
  · exact ⟨fun _ => .inl hi, fun hne => absurd hbuf hne, fun _ => .inl hi, fun _ => .inl hi, hrest⟩
  · refine ⟨fun hne => .inr ⟨hp, .inr (.inl ⟨b, hi, ?full⟩)⟩, fun _ => ⟨hp, .inr (.inl ⟨b, hi⟩)⟩,
      fun _ => .inr ⟨hp, .inr (.inl ⟨b, hi⟩)⟩, fun _ => .inr ⟨hp, .inl ⟨b, hi⟩⟩, hrest⟩
    case full =>
      by_contra hn
      exact hne ((pushByte_chain s b).trans (if_neg hn))
  · exact ⟨fun _ => .inr ⟨hp, .inl hi⟩, fun _ => ⟨hp, .inl hi⟩, fun _ => .inr ⟨hp, .inl hi⟩,
      fun hne => absurd hlen hne, hrest⟩
  · refine ⟨fun hne => .inr ⟨hp, .inr (.inr ⟨w, hi, ?fills⟩)⟩, fun _ => ⟨hp, .inr (.inr ⟨w, hi⟩)⟩,
      fun _ => .inr ⟨hp, .inr (.inr ⟨w, hi⟩)⟩, fun _ => .inr ⟨hp, .inr ⟨w, hi⟩⟩, hrest⟩
    case fills =>
      by_contra hn
      have hfits : s.buflen.val + (imm32Bytes w).length < 64 := Nat.add_lt_add_right (Nat.lt_of_not_le hn) 4
      exact hne (pushBytes_chain_of_fits (imm32Bytes w) s hfits)

end

section
/-! O29, O45, O46. One transaction from two states. Where a relation of states is kept by what the operations share (INIT,
PushByte, PadFinal, raise, clear and the register read), the transaction answers in the second state as in the first, and
leaves related states. Three relations are such: equal but for the error state, equal but for dead state, and equal but for
H. -/

namespace Sys2Proof.Machine

/-! ### One transaction from two related states -/

/-- From states related by R the operations go to states related by Q. -/
structure Carries (R Q : State → State → Prop) : Prop where
  phase      : ∀ {s t}, R s t → s.phase = t.phase
  dropRdata  : ∀ {s t}, R s t → R (s.setRdata none) (t.setRdata none)
  keep       : ∀ {s t}, R s t → Q s t
  init       : ∀ {s t}, R s t → Q ((((s.setChain iv).setBuflen 0).setLen 0).setPhase .absorb)
    ((((t.setChain iv).setBuflen 0).setLen 0).setPhase .absorb)
  pushBytes  : ∀ {s t}, R s t → s.phase = .absorb → ∀ bs, Q (pushBytes bs s) (pushBytes bs t)
  final      : ∀ {s t}, R s t → s.phase = .absorb →
    Q (((padFinal s).setBuflen 0).setPhase .done) (((padFinal t).setBuflen 0).setPhase .done)
  clearError : ∀ {s t}, R s t → Q (clearError s) (clearError t)
  raiseError : ∀ {s t}, R s t → ∀ e, Q (raiseError e s) (raiseError e t)
  readOk     : ∀ {s t}, R s t → ∀ {a v w}, busRead a s = .ok v → busRead a t = .ok w →
    Q (s.setRdata (some v)) (t.setRdata (some w))
  readError  : ∀ {s t}, R s t → ∀ e,
    Q ((Machine.raiseError e s).setRdata (some 0)) ((Machine.raiseError e t).setRdata (some 0))

namespace Carries

variable {R Q : State → State → Prop} (hc : Carries R Q)
include hc

theorem exec {i : Instr} {s t u : State} (hst : R s t) (h : exec i s = .next u) : ∃ v, exec i t = .next v ∧ Q u v := by
  have hphase := hc.phase hst
  rcases exec_cases h with ⟨rfl, rfl⟩ | ⟨rfl, rfl⟩ | ⟨b, rfl, hp, rfl⟩ | ⟨rfl, hp, rfl⟩ | ⟨rfl, rfl⟩ | ⟨w, rfl, hp, rfl⟩ |
    ⟨a, v, rfl, hb, rfl⟩ | ⟨a, e, rfl, hb, rfl⟩ | ⟨hw, hp, rfl⟩
  · exact ⟨t, rfl, hc.keep hst⟩
  · exact ⟨_, rfl, hc.init hst⟩
  · exact ⟨_, execPushb_absorb b (hphase ▸ hp), hc.pushBytes hst hp [b]⟩
  · exact ⟨_, execFinal_absorb (hphase ▸ hp), hc.final hst hp⟩
  · exact ⟨_, rfl, hc.clearError hst⟩
  · exact ⟨_, execPushw_absorb w (hphase ▸ hp), hc.pushBytes hst hp _⟩
  · cases ht : busRead a t with
    | ok w => exact ⟨_, execRd_ok ht, hc.readOk hst hb ht⟩
    | error e => cases hb.symm.trans (busRead_error_congr hphase ht)
  · exact ⟨_, execRd_error (busRead_error_congr hphase.symm hb), hc.readError hst e⟩
  · refine ⟨_, ?_, hc.raiseError hst .ePhase⟩
    obtain ⟨b, rfl⟩ | rfl | ⟨w, rfl⟩ := hw
    · exact execPushb_rejects b (hphase ▸ hp)
    · exact execFinal_rejects (hphase ▸ hp)
    · exact execPushw_rejects w (hphase ▸ hp)

theorem transact {x : Transaction} {s t u : State} (hst : R s t) (h : transact x s = .next u) :
    ∃ v, transact x t = .next v ∧ Q u v := by
  obtain ⟨i, hd, hi⟩ | ⟨e, hd, rfl⟩ := transact_cases h
  · rw [transact_ok t hd]
    exact hc.exec (hc.dropRdata hst) hi
  · exact ⟨_, transact_error t hd, hc.raiseError (hc.dropRdata hst) e⟩

end Carries

/-! ### PushByte and PadFinal from two states -/

theorem pushBytes_buflen_congr (bs : List Byte) {s t : State} (hbuflen : s.buflen = t.buflen) :
    (pushBytes bs s).buflen = (pushBytes bs t).buflen := by
  apply Fin.ext
  rw [pushBytes_buflen_val, pushBytes_buflen_val, hbuflen]

theorem pushBytes_len_congr (bs : List Byte) {s t : State} (hlen : s.len = t.len) :
    (pushBytes bs s).len = (pushBytes bs t).len := by
  rw [pushBytes_len, pushBytes_len, hlen]

theorem pushBytes_buf_congr (bs : List Byte) {s t : State} (hbuf : s.buf = t.buf) (hbuflen : s.buflen = t.buflen) :
    (pushBytes bs s).buf = (pushBytes bs t).buf := by
  induction bs generalizing s t with
  | nil => exact hbuf
  | cons b bs ih => exact ih (by simp only [pushByte_buf, hbuf, hbuflen]) (by simp only [pushByte_buflen, hbuflen])

theorem pushBytes_chain_congr (bs : List Byte) {s t : State} (hchain : s.chain = t.chain) (hbuf : s.buf = t.buf)
    (hbuflen : s.buflen = t.buflen) : (pushBytes bs s).chain = (pushBytes bs t).chain := by
  induction bs generalizing s t with
  | nil => exact hchain
  | cons b bs ih =>
    exact ih (by simp only [pushByte_chain, hchain, hbuf, hbuflen]) (by simp only [pushByte_buf, hbuf, hbuflen])
      (by simp only [pushByte_buflen, hbuflen])

/-- BUF holds the last block PadFinal processed. -/
theorem padFinal_buf (s : State) : (padFinal s).buf = if s.buflen.val ≤ 55 then oneBlock s else secondBlock s := by
  split
  · rw [padFinal_short s ‹_›]
    rfl
  · rw [padFinal_long s (by omega)]
    rfl

/-! ### Equal but for the error state (R93) -/

theorem sameButErr_carries : Carries SameButErr SameButErr where
  phase := fun ⟨_, _, _, _, hphase, _⟩ => hphase
  dropRdata := id
  keep := id
  init := fun ⟨_, hbuf, _, _, _, hhost, hdraws⟩ => ⟨rfl, hbuf, rfl, rfl, rfl, hhost, hdraws⟩
  pushBytes := by
    intro s t ⟨hchain, hbuf, hbuflen, hlen, hphase, hhost, hdraws⟩ _ bs
    exact ⟨pushBytes_chain_congr bs hchain hbuf hbuflen, pushBytes_buf_congr bs hbuf hbuflen,
      pushBytes_buflen_congr bs hbuflen, pushBytes_len_congr bs hlen, by simpa using hphase, by simpa using hhost,
      by simpa using hdraws⟩
  final := by
    intro s t ⟨hchain, hbuf, hbuflen, hlen, _, hhost, hdraws⟩ _
    obtain ⟨hchain', hbuf'⟩ := padFinal_congr hchain hbuf hbuflen hlen
    exact ⟨hchain', hbuf', rfl, by simpa using hlen, rfl, by simpa using hhost, by simpa using hdraws⟩
  clearError := id
  raiseError := by
    intro s t h e
    rw [raiseError_eq, raiseError_eq]
    exact h
  readOk := fun h _ _ _ _ _ => h
  readError := by
    intro s t h e
    rw [raiseError_eq, raiseError_eq]
    exact h

/-- What RD answers: the register's value, or 0 where the read raises (R37). -/
def readData : Except ProtocolError Word → Word
  | .ok v    => v
  | .error _ => 0

theorem exec_rd_rdata {a : Addr} {s u : State} (h : exec (.rd a) s = .next u) :
    u.rdata = some (readData (busRead a s)) := by
  cases hb : busRead a s with
  | ok v => cases (execRd_ok hb).symm.trans h; rfl
  | error e => cases (execRd_error hb).symm.trans h; rfl

/-- A write leaves the read data not valid (log 2). -/
theorem transact_write_rdata {x : Transaction} {s u : State} (hx : x.we = true) (h : transact x s = .next u) :
    u.rdata = none := by
  obtain ⟨i, hd, hi⟩ | ⟨e, hd, rfl⟩ := transact_cases h
  · by_contra hr
    obtain ⟨a, rfl⟩ := exec_rdata hi hr
    exact absurd (hx.symm.trans (read_of_decode_rd hd).1) nofun
  · exact raiseError_rdata _ e

theorem transact_read_rdata {x : Transaction} {s u : State} (hx : x.we = false) (h : transact x s = .next u) :
    u.rdata = some (readData (busRead x.addr s)) := by
  have hd : decode x = .ok (.rd x.addr) := decode_ok_iff.2 (.inl ⟨hx, rfl⟩)
  exact exec_rd_rdata (s := s.setRdata none) ((transact_ok s hd).symm.trans h)

/-! ### Equal but for dead state (R24 item 4) -/

namespace SameLive

variable {s t : State} (h : SameLive s t)
include h

/-- The bytes below BUFLEN and the one written next are the whole of BUF when it fills. -/
theorem pushByte (hp : s.phase = .absorb) (b : Byte) : SameLive (pushByte b s) (pushByte b t) := by
  obtain ⟨hbuflen, hlen, hphase, herr, hcode, hrdata, hhost, hmark, hchain, hbuf⟩ := h
  have hstored : ∀ i : Fin 64, i ≤ s.buflen → (s.buf.set s.buflen b)[i] = (t.buf.set t.buflen b)[i] := by
    intro i hi
    rw [block_set_get, block_set_get, ← hbuflen]
    split
    · rfl
    · exact hbuf i (lt_of_le_of_ne hi ‹_›)
  refine ⟨by simp [hbuflen], by simp [hlen], by simpa using hphase, by simpa using herr, by simpa using hcode,
    by simpa using hrdata, by simpa using hhost, by simpa using hmark, fun _ => ?chain, ?buf⟩
  case chain =>
    rw [pushByte_chain, pushByte_chain, hchain (hp ▸ nofun)]
    by_cases hfull : s.buflen.val = 63
    · have hset : s.buf.set s.buflen b = t.buf.set t.buflen b :=
        block_ext fun i => hstored i (Fin.le_def.2 (by have := i.isLt; omega))
      rw [if_pos hfull, if_pos (hbuflen ▸ hfull), hset]
    · rw [if_neg hfull, if_neg (hbuflen ▸ hfull)]
  case buf =>
    intro i hi
    rw [pushByte_buf, pushByte_buf]
    rw [Fin.lt_def, pushByte_buflen_val] at hi
    exact hstored i (Fin.le_def.2 (by omega))

theorem pushBytes (hp : s.phase = .absorb) (bs : List Byte) : SameLive (pushBytes bs s) (pushBytes bs t) := by
  induction bs generalizing s t with
  | nil => exact h
  | cons b bs ih => exact ih (h.pushByte hp b) ((pushByte_phase s b).trans hp)

/-- PadFinal reads BUF below BUFLEN only (R60). -/
theorem finalBlocks : finalBlocks s = finalBlocks t := by
  obtain ⟨hbuflen, hlen, -, -, -, -, -, -, -, hbuf⟩ := h
  have hrest : ∀ i : Fin 64, (if s.buflen.val < i.val then 0#8 else if i = s.buflen then 0x80#8 else s.buf[i]) =
      if t.buflen.val < i.val then 0#8 else if i = t.buflen then 0x80#8 else t.buf[i] := by
    intro i
    rw [← hbuflen]
    split_ifs with hgt heq
    · rfl
    · rfl
    · exact hbuf i (lt_of_le_of_ne (Fin.le_def.2 (Nat.le_of_not_lt hgt)) heq)
  have hone : oneBlock s = oneBlock t := block_ext fun i => by rw [oneBlock_get, oneBlock_get, hrest, hlen]
  have hfirst : firstBlock s = firstBlock t := block_ext fun i => by rw [firstBlock_get, firstBlock_get, hrest]
  have hsecond : secondBlock s = secondBlock t := block_ext fun i => by rw [secondBlock_get, secondBlock_get, hlen]
  rw [Machine.finalBlocks, Machine.finalBlocks, hone, hfirst, hsecond, hbuflen]

theorem busRead (a : Addr) : busRead a s = busRead a t := by
  obtain ⟨hbuflen, hlen, hphase, herr, hcode, -, -, -, hchain, -⟩ := h
  exact busRead_congr hphase hlen (fun _ => statusWord_congr hphase herr hbuflen) (fun _ => hcode)
    fun hd => hchain (hd ▸ nofun)

theorem setRdata (r : Option Word) : SameLive (s.setRdata r) (t.setRdata r) := by
  obtain ⟨hbuflen, hlen, hphase, herr, hcode, -, hhost, hmark, hchain, hbuf⟩ := h
  exact ⟨hbuflen, hlen, hphase, herr, hcode, rfl, hhost, hmark, hchain, hbuf⟩

theorem setHost (q : List HostEvent) : SameLive (s.setHost q) (t.setHost q) := by
  obtain ⟨hbuflen, hlen, hphase, herr, hcode, hrdata, -, hmark, hchain, hbuf⟩ := h
  exact ⟨hbuflen, hlen, hphase, herr, hcode, hrdata, rfl, hmark, hchain, hbuf⟩

theorem raiseError (e : ProtocolError) : SameLive (raiseError e s) (raiseError e t) := by
  obtain ⟨hbuflen, hlen, hphase, herr, hcode, hrdata, hhost, -, hchain, hbuf⟩ := h
  rw [raiseError_eq, raiseError_eq, ← herr, ← hcode]
  exact ⟨hbuflen, hlen, hphase, rfl, rfl, hrdata, hhost, rfl, hchain, hbuf⟩

theorem resetCore : SameLive (resetCore s) (resetCore t) := by
  obtain ⟨-, -, -, -, -, -, hhost, hmark, -, -⟩ := h
  exact ⟨rfl, rfl, rfl, rfl, rfl, rfl, hhost, hmark, fun hne => absurd rfl hne, fun i hi => absurd hi (Fin.not_lt_zero i)⟩

end SameLive

theorem sameLive_carries : Carries SameLive SameLive where
  phase := fun ⟨_, _, hphase, _⟩ => hphase
  dropRdata := fun h => h.setRdata none
  keep := id
  init := fun ⟨_, _, _, herr, hcode, hrdata, hhost, hmark, _, _⟩ =>
    ⟨rfl, rfl, rfl, herr, hcode, hrdata, hhost, hmark, fun _ => rfl, fun i hi => absurd hi (Fin.not_lt_zero i)⟩
  pushBytes := fun h hp bs => h.pushBytes hp bs
  final := by
    intro s t h hp
    have hblocks := h.finalBlocks
    obtain ⟨_, hlen, _, herr, hcode, hrdata, hhost, hmark, hchain, _⟩ := h
    refine ⟨rfl, by simpa using hlen, rfl, by simpa using herr, by simpa using hcode, by simpa using hrdata,
      by simpa using hhost, by simpa using hmark, fun _ => ?chain, fun i hi => absurd hi (Fin.not_lt_zero i)⟩
    case chain =>
      rw [State.setPhase_chain, State.setBuflen_chain, State.setPhase_chain, State.setBuflen_chain, padFinal_chain_eq,
        padFinal_chain_eq, hblocks, hchain (hp ▸ nofun)]
  clearError := fun ⟨hbuflen, hlen, hphase, _, _, hrdata, hhost, hmark, hchain, hbuf⟩ =>
    ⟨hbuflen, hlen, hphase, rfl, rfl, hrdata, hhost, hmark, hchain, hbuf⟩
  raiseError := fun h e => h.raiseError e
  readOk := by
    intro s t h a v w hv hw
    cases hv.symm.trans ((h.busRead a).trans hw)
    exact h.setRdata _
  readError := fun h e => (h.raiseError e).setRdata _

theorem SameLive.step {s t u : State} (h : SameLive s t) (hu : step s = .next u) :
    ∃ v, step t = .next v ∧ SameLive u v := by
  have hhost : t.host = s.host := by
    obtain ⟨-, -, -, -, -, -, hhost, -⟩ := h
    exact hhost.symm
  obtain ⟨hs, rfl⟩ | ⟨rest, hs, rfl⟩ | ⟨x, rest, hs, hx⟩ := step_cases hu
  · exact ⟨t, step_empty (hhost.trans hs), h⟩
  · exact ⟨_, step_reset (hhost.trans hs), (h.setHost rest).resetCore⟩
  · rw [step_transaction (hhost.trans hs)]
    exact sameLive_carries.transact (h.setHost rest) hx

/-! ### Equal but for H (R14) -/

/-- Equal but for H. -/
def SameButChain (s t : State) : Prop := ∃ h : Chain, t = { s with chain := h }

/-- Equal but for H, and not in DONE, where the registers show H. -/
def HiddenChain (s t : State) : Prop := s.phase ≠ .done ∧ SameButChain s t

theorem SameButChain.raiseError {s t : State} (h : SameButChain s t) (e : ProtocolError) (r : Option Word) :
    SameButChain ((raiseError e s).setRdata r) ((raiseError e t).setRdata r) := by
  obtain ⟨h, rfl⟩ := h
  rw [raiseError_eq, raiseError_eq]
  exact ⟨h, rfl⟩

theorem hiddenChain_carries : Carries HiddenChain SameButChain where
  phase := by rintro s t ⟨-, h, rfl⟩; rfl
  dropRdata := by rintro s t ⟨hp, h, rfl⟩; exact ⟨hp, h, rfl⟩
  keep := fun h => h.2
  init := by rintro s t ⟨-, h, rfl⟩; exact ⟨iv, rfl⟩
  pushBytes := by
    rintro s t ⟨-, h, rfl⟩ - bs
    exact ⟨_, State.ext_fields rfl (pushBytes_buf_congr bs rfl rfl) (pushBytes_buflen_congr bs rfl)
      (pushBytes_len_congr bs rfl) (by simp) (by simp) (by simp) (by simp) (by simp) (by simp) (by simp)⟩
  final := by
    rintro s t ⟨-, h, rfl⟩ -
    refine ⟨_, State.ext_fields rfl ?buf rfl ?_ rfl ?_ ?_ ?_ ?_ ?_ ?_⟩
    case buf => exact (padFinal_buf _).trans (padFinal_buf s).symm
    all_goals simp
  clearError := by rintro s t ⟨-, h, rfl⟩; exact ⟨h, rfl⟩
  raiseError := by
    rintro s t ⟨-, h, rfl⟩ e
    rw [raiseError_eq, raiseError_eq]
    exact ⟨h, rfl⟩
  readOk := by
    rintro s t ⟨hp, h, rfl⟩ a v w hv hw
    have hsame : busRead a s = busRead a { s with chain := h } :=
      busRead_congr rfl rfl (fun _ => rfl) (fun _ => rfl) fun hd => absurd hd hp
    cases hv.symm.trans (hsame.trans hw)
    exact ⟨h, rfl⟩
  readError := fun h e => h.2.raiseError e _

end Sys2Proof.Machine

open Sys2Proof.Machine in
/-- Settles O29: `transact_marks`, and states equal but for the error state are carried along. -/
theorem raiseRecordsAndChangesNothingElse : Obligations.RaiseRecordsAndChangesNothingElse := by
  refine ⟨raiseError_eq_recorded, fun _ _ _ => transact_marks, fun x s t u hst hu => ?_⟩
  obtain ⟨v, hv, huv⟩ := sameButErr_carries.transact hst hu
  refine ⟨v, hv, huv, fun hx => ?_⟩
  cases hwe : x.we with
  | true => rw [transact_write_rdata hwe hu, transact_write_rdata hwe hv]
  | false =>
    obtain ⟨hchain, -, -, hlen, hphase, -⟩ := hst
    obtain ⟨hstatus, hcode⟩ := hx.resolve_left (hwe ▸ nofun)
    rw [transact_read_rdata hwe hu, transact_read_rdata hwe hv, busRead_congr hphase hlen (absurd · hstatus)
      (absurd · hcode) fun _ => hchain]

open Sys2Proof.Machine in
/-- Settles O45, by induction on the length of the run: a step keeps two states equal but for dead state. -/
theorem deadStateNeverReachesTheHost : Obligations.DeadStateNeverReachesTheHost := by
  intro k
  induction k with
  | zero => intro s1 s2 t1 hs h; cases h; exact ⟨s2, rfl, hs⟩
  | succ k ih =>
    intro s1 s2 t1 hs h
    obtain ⟨u1, hu1, ht1⟩ := steps_succ_cases h
    obtain ⟨u2, hu2, hu⟩ := hs.step hu1
    obtain ⟨t2, ht2, ht⟩ := ih u1 u2 t1 hu ht1
    exact ⟨t2, (steps_succ k hu2).trans ht2, ht⟩

open Sys2Proof.Machine in
/-- Settles O46: outside DONE states equal but for H are carried along. -/
theorem chainIsHiddenBeforeDone : Obligations.ChainIsHiddenBeforeDone := by
  intro x s u h hp hu
  obtain ⟨v, hv, h', rfl⟩ := hiddenChain_carries.transact (t := { s with chain := h }) ⟨hp, h, rfl⟩ hu
  exact ⟨h', hv⟩

end

section
/-! O8, O9. The primitives on numbers and bits (R7, R8). -/

namespace Sys2Proof.Machine

theorem rotl32_toNat (x : Word) (n : Nat) :
    (rotl32 x n).toNat = (x.toNat * 2 ^ n ||| x.toNat / 2 ^ (32 - n)) % 2 ^ 32 := by
  have hlt : x.toNat / 2 ^ (32 - n) < 2 ^ 32 := (Nat.div_le_self _ _).trans_lt x.isLt
  rw [Nat.or_mod_two_pow, Nat.mod_eq_of_lt hlt]
  simp [rotl32, Nat.shiftLeft_eq, Nat.shiftRight_eq_div_pow]

/-- The bits that leave at the top come in at the bottom. -/
theorem rotl32_getLsbD (x : Word) {n i : Nat} (h1 : 1 ≤ n) (hn : n ≤ 31) (hi : i < 32) :
    (rotl32 x n).getLsbD i = x.getLsbD ((i + 32 - n) % 32) := by
  simp only [rotl32, BitVec.getLsbD_or, BitVec.getLsbD_shiftLeft, BitVec.getLsbD_ushiftRight, hi, decide_true,
    Bool.true_and]
  obtain hlt | hle := Nat.lt_or_ge i n
  · have hidx : (i + 32 - n) % 32 = 32 - n + i := by omega
    simp [hidx, hlt]
  · have hidx : (i + 32 - n) % 32 = i - n := by omega
    have hout : x.getLsbD (32 - n + i) = false := BitVec.getLsbD_of_ge x _ (by omega)
    simp only [hidx, hout, Nat.not_lt.2 hle, decide_false, Bool.not_false, Bool.true_and, Bool.or_false]

theorem be32_toNat (b0 b1 b2 b3 : Byte) :
    (be32 b0 b1 b2 b3).toNat = b0.toNat * 2 ^ 24 + b1.toNat * 2 ^ 16 + b2.toNat * 2 ^ 8 + b3.toNat := by
  simp only [be32, append_toNat]
  omega

theorem bytesBe32_be32 (b0 b1 b2 b3 : Byte) : bytesBe32 (be32 b0 b1 b2 b3) = [b0, b1, b2, b3] := by
  have h0 := b0.isLt
  have h1 := b1.isLt
  have h2 := b2.isLt
  have h3 := b3.isLt
  simp only [bytesBe32, List.cons.injEq, and_true, ← BitVec.toNat_inj, BitVec.extractLsb'_toNat,
    Nat.shiftRight_eq_div_pow, be32_toNat]
  omega

theorem bigEndian_bytesBe32 (w : Word) : bigEndian (bytesBe32 w) = w.toNat := by
  have hw := w.isLt
  simp only [bigEndian, bytesBe32, List.foldl_cons, List.foldl_nil, BitVec.extractLsb'_toNat, Nat.shiftRight_eq_div_pow]
  omega

end Sys2Proof.Machine

open Sys2Proof.Machine in
/-- Settles O8: the formula on numbers, and the two parts of the rotation bit by bit. -/
theorem rotateMovesBitsAround : Obligations.RotateMovesBitsAround :=
  fun x n h1 hn => ⟨rotl32_toNat x n, fun _ => rotl32_getLsbD x h1 hn⟩

open Sys2Proof.Machine in
/-- Settles O9: the bytes of a word as numbers, in both directions. -/
theorem byteOrderIsBigEndian : Obligations.ByteOrderIsBigEndian :=
  ⟨fun b0 b1 b2 b3 => ⟨be32_toNat b0 b1 b2 b3, bytesBe32_be32 b0 b1 b2 b3⟩,
    fun w => ⟨bytesBe32_length w, bigEndian_bytesBe32 w⟩, fun n => ⟨bytesBe64_length n, bigEndian_bytesBe64 n⟩⟩

end

section
/-! O11 to O13. Pad by its parts: where each stands, how many blocks they make, and that they give the message back (R57
to R59). -/

namespace Sys2Proof.Machine

theorem zeroCount_of_le {l : Nat} (h : l % 64 ≤ 55) : zeroCount l = 55 - l % 64 := by
  rw [zeroCount]
  omega

theorem zeroCount_of_ge {l : Nat} (h : 56 ≤ l % 64) : zeroCount l = 119 - l % 64 := by
  rw [zeroCount]
  omega

/-- The length of Pad in blocks: the message, the mark and the length field, filled up. -/
theorem pad_length_blocks (m : List Byte) : (pad m).length = 64 * ((m.length + 8) / 64 + 1) := by
  rw [pad_length]
  obtain h | h := Nat.lt_or_ge (m.length % 64) 56
  · rw [zeroCount_of_le (by omega)]
    omega
  · rw [zeroCount_of_ge h]
    omega

section
variable (m : List Byte)

theorem pad_eq : pad m = m ++ (0x80#8 :: (List.replicate (zeroCount m.length) 0#8 ++ lengthField m.length)) := by
  simp [pad]

theorem pad_take : (pad m).take m.length = m := by
  rw [pad_eq, List.take_left]

theorem pad_getElem?_mark : (pad m)[m.length]? = some 0x80#8 := by
  rw [pad_eq, List.getElem?_append_right le_rfl, Nat.sub_self]
  rfl

theorem pad_getElem?_zero {j : Nat} (hj : m.length < j) (hz : j ≤ m.length + zeroCount m.length) :
    (pad m)[j]? = some 0x00#8 := by
  obtain ⟨k, rfl⟩ := Nat.exists_eq_add_of_lt hj
  have hk : k < zeroCount m.length := by omega
  rw [pad_eq, Nat.add_assoc, List.getElem?_append_right (by omega), Nat.add_sub_cancel_left, List.getElem?_cons_succ,
    List.getElem?_append_left (by rwa [List.length_replicate]), List.getElem?_replicate_of_lt hk]

/-- Pad ends in the length field. -/
theorem pad_drop_field : (pad m).drop ((pad m).length - 8) = lengthField m.length := by
  have hbefore : (pad m).length - 8 = (m ++ [0x80#8] ++ List.replicate (zeroCount m.length) 0#8).length := by
    rw [pad_length]
    simp only [List.length_append, List.length_singleton, List.length_replicate]
    omega
  rw [hbefore, pad, List.drop_left]

end

/-- Messages whose padded forms are equally long differ by less than a block, so the length field tells their lengths
apart though it wraps. -/
theorem length_eq_of_pad_eq {m1 m2 : List Byte} (h : pad m1 = pad m2) : m1.length = m2.length := by
  have hlen := congrArg List.length h
  have hfield : lengthField m1.length = lengthField m2.length := by rw [← pad_drop_field, ← pad_drop_field, h]
  have hbits := congrArg bigEndian hfield
  rw [bigEndian_lengthField, bigEndian_lengthField] at hbits
  rw [pad_length_blocks, pad_length_blocks] at hlen
  omega

theorem pad_injective {m1 m2 : List Byte} (h : pad m1 = pad m2) : m1 = m2 := by
  rw [← pad_take m1, ← pad_take m2, h, length_eq_of_pad_eq h]

theorem lengthField_wraps (l : Nat) : lengthField (l + 2 ^ 61) = lengthField l := by
  have hbits : BitVec.ofNat 64 ((l + 2 ^ 61) * 8) = BitVec.ofNat 64 (l * 8) := by
    apply BitVec.eq_of_toNat_eq
    rw [BitVec.toNat_ofNat, BitVec.toNat_ofNat]
    omega
  rw [lengthField, lengthField, hbits]

end Sys2Proof.Machine

open Sys2Proof.Machine in
/-- Settles O11: arithmetic modulo 64, and the examples are evaluated. -/
theorem zeroCountClosedForm : Obligations.ZeroCountClosedForm := by
  refine ⟨fun l => ⟨?_, ?_, zeroCount_of_le, zeroCount_of_ge, ?_, ?_⟩, rfl⟩ <;> rw [zeroCount] <;> omega

open Sys2Proof.Machine in
/-- Settles O12: the parts of Pad by their places; two messages with one padded form are equally long. -/
theorem padShapeAndInjective : Obligations.PadShapeAndInjective := by
  refine ⟨fun m => ?shape, fun _ _ => pad_injective⟩
  have hblocks := pad_length_blocks m
  have hzero {j : Nat} := pad_getElem?_zero m (j := j)
  refine ⟨hblocks, pad_length m, by omega, by omega, pad_take m, pad_getElem?_mark m, fun j => hzero, fun h => by omega,
    fun h => ⟨by omega, fun j hj => ?_⟩⟩
  have hcount := zeroCount_of_ge h
  exact hzero (by omega) (by omega)

open Sys2Proof.Machine in
/-- Settles O13: Pad ends in the length field, which is the bit length modulo 2^64. -/
theorem lengthFieldWraps : Obligations.LengthFieldWraps := by
  refine fun m => ⟨?_, lengthField_wraps⟩
  rw [pad_drop_field, bigEndian_lengthField]

end

section
/-! O15 to O17. XOR passes through every step of the schedule, and a round bit by bit and as numbers (R66, R69 to R71). -/

namespace Sys2Proof.Machine

theorem be32_xor (a0 a1 a2 a3 b0 b1 b2 b3 : Byte) : be32 (a0 ^^^ b0) (a1 ^^^ b1) (a2 ^^^ b2) (a3 ^^^ b3) =
    be32 a0 a1 a2 a3 ^^^ be32 b0 b1 b2 b3 := by
  show (a0 ^^^ b0) ++ (a1 ^^^ b1) ++ (a2 ^^^ b2) ++ (a3 ^^^ b3) = (a0 ++ a1 ++ a2 ++ a3) ^^^ (b0 ++ b1 ++ b2 ++ b3)
  simp only [BitVec.xor_append]

theorem xor4_xor (x1 x2 x3 x4 y1 y2 y3 y4 : Word) : (x1 ^^^ y1) ^^^ (x2 ^^^ y2) ^^^ (x3 ^^^ y3) ^^^ (x4 ^^^ y4) =
    (x1 ^^^ x2 ^^^ x3 ^^^ x4) ^^^ (y1 ^^^ y2 ^^^ y3 ^^^ y4) := by
  ac_rfl

theorem rotl32_xor (x y : Word) {n : Nat} (h1 : 1 ≤ n) (hn : n ≤ 31) :
    rotl32 (x ^^^ y) n = rotl32 x n ^^^ rotl32 y n := by
  apply BitVec.eq_of_getLsbD_eq
  intro i hi
  simp only [BitVec.getLsbD_xor, rotl32_getLsbD _ h1 hn hi]

/-- The XOR of two blocks, byte by byte. -/
def xorBlocks (x y : Block) : Block := Vector.zipWith (fun a b => a ^^^ b) x y

theorem schedule_xor (x y : Block) (t : Nat) (h : t < 80) :
    (schedule (xorBlocks x y))[t] = (schedule x)[t] ^^^ (schedule y)[t] := by
  induction t using Nat.strong_induction_on with
  | _ t ih =>
    obtain hlt | hle := Nat.lt_or_ge t 16
    · simp only [schedule_get_of_lt _ hlt, ← be32_xor, xorBlocks, Vector.getElem_zipWith]
    · rw [schedule_get_of_le _ hle h, schedule_get_of_le _ hle h, schedule_get_of_le _ hle h, ih (t - 3) (by omega),
        ih (t - 8) (by omega), ih (t - 14) (by omega), ih (t - 16) (by omega), xor4_xor,
        rotl32_xor _ _ (by decide) (by decide)]

/-! ### The round function, bit by bit (R69) -/

/-- Choice, parity and majority of three bits. -/
def roundBit (t : Nat) (b c d : Bool) : Bool :=
  if t ≤ 19 then (if b then c else d)
  else if 40 ≤ t ∧ t ≤ 59 then decide (2 ≤ b.toNat + c.toNat + d.toNat)
  else decide ((b.toNat + c.toNat + d.toNat) % 2 = 1)

theorem choice_bit (b c d : Bool) : (b && c || !b && d) = if b then c else d := by
  cases b <;> simp

theorem majority_bit (b c d : Bool) : (b && c || b && d || c && d) = decide (2 ≤ b.toNat + c.toNat + d.toNat) := by
  revert b c d
  decide

theorem parity_bit (b c d : Bool) : (b ^^ c ^^ d) = decide ((b.toNat + c.toNat + d.toNat) % 2 = 1) := by
  revert b c d
  decide

theorem roundFn_getLsbD (t : Nat) (b c d : Word) {i : Nat} (hi : i < 32) :
    (roundFn t b c d).getLsbD i = roundBit t (b.getLsbD i) (c.getLsbD i) (d.getLsbD i) := by
  rw [roundBit, roundFn]
  by_cases h20 : t < 20
  · rw [if_pos h20, if_pos (by omega), ← choice_bit]
    simp only [BitVec.getLsbD_or, BitVec.getLsbD_and, BitVec.getLsbD_not, hi, decide_true, Bool.true_and]
  have h19 : ¬t ≤ 19 := by omega
  rw [if_neg h20, if_neg h19]
  by_cases h40 : t < 40
  · rw [if_pos h40, if_neg (by omega), ← parity_bit]
    simp only [BitVec.getLsbD_xor, Bool.bne_assoc]
  rw [if_neg h40]
  by_cases h60 : t < 60
  · rw [if_pos h60, if_pos (by omega), ← majority_bit]
    simp only [BitVec.getLsbD_or, BitVec.getLsbD_and]
  · rw [if_neg h60, if_neg (by omega), ← parity_bit]
    simp only [BitVec.getLsbD_xor, Bool.bne_assoc]

/-! ### A round as numbers (R70, R71) -/

theorem roundConst_toNat (t : Nat) : (roundConst t).toNat =
    if t ≤ 19 then 0x5A827999 else if t ≤ 39 then 0x6ED9EBA1 else if t ≤ 59 then 0x8F1BBCDC else 0xCA62C1D6 := by
  rw [roundConst]
  split_ifs
  -- Where both sides take the same branch they are the same numeral; no other choice of branches is possible.
  all_goals try rfl
  all_goals omega

theorem add5_toNat (x1 x2 x3 x4 x5 : Word) : (x1 + x2 + x3 + x4 + x5).toNat =
    (x1.toNat + x2.toNat + x3.toNat + x4.toNat + x5.toNat) % 2 ^ 32 := by
  simp only [BitVec.toNat_add]
  omega

end Sys2Proof.Machine

open Sys2Proof.Machine in
/-- Settles O15, by induction on the index of the word: both forms of a word are linear in the words it is made of. -/
theorem scheduleIsLinear : Obligations.ScheduleIsLinear := schedule_xor

open Sys2Proof.Machine in
/-- Settles O16: `roundFn_getLsbD`, and the examples are evaluated. -/
theorem roundFunctionTruthTable : Obligations.RoundFunctionTruthTable :=
  ⟨fun t b c d _ _ hi => roundFn_getLsbD t b c d hi, rfl, rfl, rfl⟩

open Sys2Proof.Machine in
/-- Settles O17: the sum of five words, and the moves by unfolding the round. -/
theorem roundAddsFiveTermsAndMoves : Obligations.RoundAddsFiveTermsAndMoves := by
  refine ⟨fun t w r _ => ?round, fun t w0 w1 w2 r => rfl⟩
  refine ⟨?sum, rfl, rotl32_toNat r.b 30, rfl, rfl⟩
  rw [← roundConst_toNat]
  exact add5_toNat (rotl32 r.a 5) (roundFn t r.b r.c r.d) r.e (roundConst t) w

end

section
/-! O28. A hex character is that of one hexadecimal digit of H (R85). -/

namespace Sys2Proof.Machine

theorem hexChar_toNat (n : BitVec 4) :
    (hexChar n).toNat = if n.toNat ≤ 9 then 0x30 + n.toNat else 0x61 + (n.toNat - 10) := by
  revert n
  decide

/-- Nibble k of word j, counted from the most significant: half of byte k / 2 of the word. -/
theorem nib_toNat (h : Chain) (j : Fin 5) {k : Nat} (hk : k < 8) :
    (nib h (8 * j.val + k)).toNat = h[j].toNat / 16 ^ (7 - k) % 16 := by
  have hbyte : (digestBytes h).getD ((8 * j.val + k) / 2) 0#8 = BitVec.ofNat 8 (h[j].toNat / 2 ^ (24 - 8 * (k / 2))) := by
    have hidx : (8 * j.val + k) / 2 = 4 * j.val + k / 2 := by omega
    rw [hidx, List.getD_eq_getElem?_getD, digestBytes_getElem?_word h j (by omega), bytesBe32_getElem? _ (by omega)]
    rfl
  have hparity : (8 * j.val + k) % 2 = k % 2 := by omega
  simp only [nib, hbyte, hparity]
  generalize h[j].toNat = n
  interval_cases k <;> simp [BitVec.extractLsb'_toNat, Nat.shiftRight_eq_div_pow] <;> omega

end Sys2Proof.Machine

open Sys2Proof.Machine in
/-- Settles O28: the characters of the nibbles of H[j], and HEXj is four characters, big-endian. -/
theorem hexWindowSpellsTheDigest : Obligations.HexWindowSpellsTheDigest := by
  refine fun h => ⟨fun j k hk => ?digit, fun j k hk => ?window⟩
  case digit =>
    intro digit
    have hdigit : (nib h (8 * j.val + k)).toNat = digit := nib_toNat h j hk
    rw [hexAt, hexChar_toNat, hdigit]
  case window =>
    rw [hexWord, bytesBe32_be32]
    interval_cases k <;> rfl

end

section
/-! O40, O41. The bytes pushed since INIT are in H, block by block, and the rest in BUF; PadFinal appends the end of the
padded message, so FINAL leaves the chaining state after all its blocks (R24, R61). -/

namespace Sys2Proof.Machine

/-! ### Blocks of a byte sequence -/

theorem blockAt_eq {p : List Byte} {n : Nat} {b : Block} (h : ∀ i : Fin 64, p[64 * n + i.val]? = some b[i]) :
    blockAt p n = b := by
  apply block_ext
  intro i
  obtain ⟨hlt, hget⟩ := List.getElem?_eq_some_iff.1 (h i)
  rw [blockAt_get p n i hlt, hget]

/-- Compress on the blocks from n on takes the chaining state after n blocks to the one after them. -/
theorem chainAfter_add (p : List Byte) (n k : Nat) :
    ((List.range k).map fun i => blockAt p (n + i)).foldl (fun h b => compress h (schedule b)) (chainAfter p n) =
      chainAfter p (n + k) := by
  induction k with
  | zero => rfl
  | succ k ih =>
    rw [List.range_succ, List.map_append, List.foldl_append, ih]
    exact (chainAfter_succ p (n + k)).symm

/-! ### PushByte extends the message absorbed -/

theorem init_absorbed (s : State) : ((((s.setChain iv).setBuflen 0).setLen 0).setPhase .absorb).Absorbed [] :=
  ⟨rfl, rfl, rfl, rfl, fun i hi => absurd hi (Fin.not_lt_zero i)⟩

namespace State.Absorbed

variable {m : List Byte} {s : State} (h : s.Absorbed m)
include h

/-- After PushByte the bytes of BUF up to the one written are the end of the message. -/
theorem stored (b : Byte) (i : Fin 64) (hi : i ≤ s.buflen) :
    (m ++ [b])[64 * (m.length / 64) + i.val]? = some (s.buf.set s.buflen b)[i] := by
  obtain ⟨-, -, hbuflen, -, hbuf⟩ := h
  rw [block_set_get]
  split
  · have hidx : 64 * (m.length / 64) + i.val = m.length := by
      rw [‹i = s.buflen›, hbuflen]
      exact Nat.div_add_mod m.length 64
    rw [hidx, List.getElem?_concat_length]
  · have hlt : i < s.buflen := lt_of_le_of_ne hi ‹_›
    have hget := hbuf i hlt
    obtain ⟨hin, -⟩ := List.getElem?_eq_some_iff.1 hget
    rw [List.getElem?_append_left hin, hget]

theorem pushByte (b : Byte) : (pushByte b s).Absorbed (m ++ [b]) := by
  have hstored := h.stored b
  obtain ⟨hphase, hlen, hbuflen, hchain, -⟩ := h
  have hlength : (m ++ [b]).length = m.length + 1 := List.length_append
  refine ⟨(pushByte_phase s b).trans hphase, ?len, ?buflen, ?chain, ?buf⟩
  case len =>
    rw [pushByte_len, hlen, hlength, BitVec.ofNat_add]
    rfl
  case buflen =>
    rw [pushByte_buflen_val, hlength, hbuflen]
    omega
  case chain =>
    have hkept : chainAfter (m ++ [b]) (m.length / 64) = s.chain :=
      (chainAfter_append m [b] _ (by omega)).trans hchain.symm
    rw [pushByte_chain, hlength]
    by_cases hfull : s.buflen.val = 63
    · have hnext : (m.length + 1) / 64 = m.length / 64 + 1 := by omega
      have hblock : blockAt (m ++ [b]) (m.length / 64) = s.buf.set s.buflen b :=
        blockAt_eq fun i => hstored i (Fin.le_def.2 (by have := i.isLt; omega))
      rw [if_pos hfull, hnext, chainAfter_succ, hkept, hblock]
    · have hsame : (m.length + 1) / 64 = m.length / 64 := by omega
      rw [if_neg hfull, hsame, hkept]
  case buf =>
    intro i hi
    rw [Fin.lt_def, pushByte_buflen_val] at hi
    have hsame : (m.length + 1) / 64 = m.length / 64 := by omega
    rw [pushByte_buf, hlength, hsame]
    exact hstored i (Fin.le_def.2 (by omega))

theorem pushBytes (bs : List Byte) : (pushBytes bs s).Absorbed (m ++ bs) := by
  induction bs generalizing m s with
  | nil => exact (List.append_nil m).symm ▸ h
  | cons b bs ih => exact List.append_cons m b bs ▸ ih (h.pushByte b)

end State.Absorbed

/-! ### The padded message, byte by byte -/

section
variable (m : List Byte)

theorem pad_getElem?_message {j : Nat} (hj : j < m.length) : (pad m)[j]? = m[j]? := by
  rw [pad_eq, List.getElem?_append_left hj]

theorem pad_getElem?_field {k : Nat} (hk : k < 8) :
    (pad m)[(pad m).length - 8 + k]? = some ((lengthField m.length).getD k 0#8) := by
  have hlt : k < (lengthField m.length).length := hk
  rw [← List.getElem?_drop, pad_drop_field, List.getElem?_eq_getElem hlt, List.getD_eq_getElem _ _ hlt]

/-- The blocks before the last ones are the full blocks of the message. -/
theorem blockAt_pad {i : Nat} (hi : i < m.length / 64) : blockAt (pad m) i = blockAt m i := by
  rw [pad_eq]
  exact blockAt_append _ _ _ (by omega)

theorem chainAfter_pad : chainAfter (pad m) (m.length / 64) = chainAfter m (m.length / 64) := by
  rw [pad_eq]
  exact chainAfter_append _ _ _ (by omega)

end

/-! ### The blocks of PadFinal are the last blocks of the padded message (R61) -/

namespace State.Absorbed

variable {m : List Byte} {s : State} (h : s.Absorbed m)
include h

theorem bitLength : bytesBe64 (s.len * 8) = lengthField m.length := by
  obtain ⟨-, hlen, -⟩ := h
  rw [lengthField, hlen, BitVec.ofNat_mul]
  rfl

theorem buflen_val : s.buflen.val = m.length % 64 := by
  obtain ⟨-, -, hbuflen, -⟩ := h
  exact hbuflen

/-- The padded message where PadFinal starts: the bytes of BUF, the mark, and zeros up to the length field. -/
theorem pad_get (i : Fin 64) (hz : 64 * (m.length / 64) + i.val ≤ m.length + zeroCount m.length) :
    (pad m)[64 * (m.length / 64) + i.val]? = some (firstBlock s)[i] := by
  obtain ⟨-, -, hbuflen, -, hbuf⟩ := h
  rw [firstBlock_get]
  split_ifs with hgt heq
  · exact pad_getElem?_zero m (by omega) hz
  · have hidx : 64 * (m.length / 64) + i.val = m.length := by
      rw [heq, hbuflen]
      exact Nat.div_add_mod m.length 64
    rw [hidx, pad_getElem?_mark]
  · have hlt : i < s.buflen := lt_of_le_of_ne (Fin.le_def.2 (Nat.le_of_not_lt hgt)) heq
    rw [pad_getElem?_message m (by omega)]
    exact hbuf i hlt

/-- The last eight bytes of the last block are the length field. -/
theorem pad_get_field {n : Nat} (hn : (pad m).length = 64 * (n + 1)) (i : Fin 64) (hi : 56 ≤ i.val) :
    (pad m)[64 * n + i.val]? = some ((bytesBe64 (s.len * 8)).getD (i.val - 56) 0#8) := by
  have hlt := i.isLt
  have hidx : 64 * n + i.val = (pad m).length - 8 + (i.val - 56) := by omega
  rw [hidx, pad_getElem?_field m (by omega), h.bitLength]

theorem blockAt_pad_one (hs : s.buflen.val ≤ 55) : blockAt (pad m) (m.length / 64) = oneBlock s := by
  have hbuflen := h.buflen_val
  have hcount := zeroCount_of_le (hbuflen ▸ hs)
  have hlength := pad_length_blocks m
  apply blockAt_eq
  intro i
  rw [oneBlock_get]
  by_cases hi : 56 ≤ i.val
  · rw [if_pos hi, h.pad_get_field (by omega) i hi]
  · rw [if_neg hi, h.pad_get i (by omega), firstBlock_get]

theorem blockAt_pad_first (hs : 56 ≤ s.buflen.val) : blockAt (pad m) (m.length / 64) = firstBlock s := by
  have hbuflen := h.buflen_val
  have hcount := zeroCount_of_ge (hbuflen ▸ hs)
  exact blockAt_eq fun i => h.pad_get i (by omega)

theorem blockAt_pad_second (hs : 56 ≤ s.buflen.val) : blockAt (pad m) (m.length / 64 + 1) = secondBlock s := by
  have hbuflen := h.buflen_val
  have hcount := zeroCount_of_ge (hbuflen ▸ hs)
  have hlength := pad_length_blocks m
  apply blockAt_eq
  intro i
  rw [secondBlock_get]
  by_cases hi : 56 ≤ i.val
  · rw [if_pos hi, h.pad_get_field (by omega) i hi]
  · rw [if_neg hi, pad_getElem?_zero m (by omega) (by omega)]

theorem finalBlocks_eq : finalBlocks s = (List.range ((pad m).length / 64 - m.length / 64)).map
    fun i => blockAt (pad m) (m.length / 64 + i) := by
  have hbuflen := h.buflen_val
  have hlength := pad_length_blocks m
  rw [finalBlocks]
  by_cases hs : s.buflen.val ≤ 55
  · have hone : (pad m).length / 64 - m.length / 64 = 1 := by omega
    rw [if_pos hs, hone, ← h.blockAt_pad_one hs]
    rfl
  · have htwo : (pad m).length / 64 - m.length / 64 = 2 := by omega
    rw [if_neg hs, htwo, ← h.blockAt_pad_first (by omega), ← h.blockAt_pad_second (by omega)]
    rfl

theorem padFinal_chain : (padFinal s).chain = sha1 m := by
  have hblocks := h.finalBlocks_eq
  obtain ⟨-, -, -, hchain, -⟩ := h
  have hle : m.length / 64 ≤ (pad m).length / 64 := Nat.div_le_div_right (by rw [pad_length]; omega)
  rw [padFinal_chain_eq, hblocks, hchain, ← chainAfter_pad, chainAfter_add, Nat.add_sub_cancel' hle]
  rfl

end State.Absorbed

/-- R24 item 3: FINAL has ended the message `m`. H is its SHA-1 chaining state, and LEN its length modulo 2^64. -/
def State.Digested (m : List Byte) (s : State) : Prop :=
  s.phase = .done ∧ s.len = BitVec.ofNat 64 m.length ∧ s.buflen = 0 ∧ s.chain = sha1 m

theorem State.Absorbed.final {m : List Byte} {s : State} (h : s.Absorbed m) :
    (((padFinal s).setBuflen 0).setPhase .done).Digested m := by
  have hchain := h.padFinal_chain
  obtain ⟨-, hlen, -⟩ := h
  exact ⟨rfl, (padFinal_len s).trans hlen, rfl, hchain⟩

/-! ### The operations of a message (R87) -/

/-- What a sequence of operations does to the error state where it raises nothing: CLRERR clears ERR, and the rest
leave it. -/
def ErrorStateAfter (is : List Instr) (s t : State) : Prop :=
  t.faultMark = s.faultMark ∧ (.clrerr ∉ is → t.err = s.err ∧ t.errcode = s.errcode) ∧
  (.clrerr ∈ is → t.err = false ∧ t.errcode = 0)

theorem ErrorStateAfter.of_not_mem {is : List Instr} {s t : State} (hi : .clrerr ∉ is) (h : SameErrorState s t) :
    ErrorStateAfter is s t := by
  obtain ⟨herr, hcode, hmark⟩ := h
  exact ⟨hmark.symm, fun _ => ⟨herr.symm, hcode.symm⟩, fun h => absurd h hi⟩

theorem ErrorStateAfter.append {is js : List Instr} {s t u : State} (h : ErrorStateAfter is s t)
    (h' : ErrorStateAfter js t u) : ErrorStateAfter (is ++ js) s u := by
  obtain ⟨hmark, hkept, hcleared⟩ := h
  obtain ⟨hmark', hkept', hcleared'⟩ := h'
  refine ⟨hmark'.trans hmark, fun hn => ?_, fun hm => ?_⟩
  · obtain ⟨hi, hj⟩ := not_or.1 (mt List.mem_append.2 hn)
    obtain ⟨herr, hcode⟩ := hkept hi
    obtain ⟨herr', hcode'⟩ := hkept' hj
    exact ⟨herr'.trans herr, hcode'.trans hcode⟩
  · by_cases hj : .clrerr ∈ js
    · exact hcleared' hj
    · obtain ⟨herr, hcode⟩ := hcleared ((List.mem_append.1 hm).resolve_right hj)
      obtain ⟨herr', hcode'⟩ := hkept' hj
      exact ⟨herr'.trans herr, hcode'.trans hcode⟩

/-- An operation of a message extends it by its bytes, and raises nothing. -/
theorem exec_feeds {m : List Byte} {s : State} {i : Instr} (hs : s.Absorbed m) (hi : feeds i = true) :
    ∃ t, exec i s = .next t ∧ t.Absorbed (m ++ pushedBytes i) ∧ t.host = s.host ∧ ErrorStateAfter [i] s t := by
  have hp : s.phase = .absorb := by
    obtain ⟨hp, -⟩ := hs
    exact hp
  have hnil := (List.append_nil m).symm ▸ hs
  cases i with
  | init => cases hi
  | final => cases hi
  | nop => exact ⟨s, rfl, hnil, rfl, .of_not_mem (by simp) ⟨rfl, rfl, rfl⟩⟩
  | clrerr =>
    exact ⟨clearError s, rfl, hnil, rfl, rfl, fun hn => absurd (List.mem_singleton_self _) hn, fun _ => ⟨rfl, rfl⟩⟩
  | pushb b =>
    exact ⟨pushByte b s, exec_pushb_absorb b hp, hs.pushByte b, pushByte_host s b,
      .of_not_mem (by simp) ⟨(pushByte_err s b).symm, (pushByte_errcode s b).symm, (pushByte_faultMark s b).symm⟩⟩
  | pushw w =>
    exact ⟨pushBytes (imm32Bytes w) s, exec_pushw_absorb w hp, hs.pushBytes _, pushBytes_host s _,
      .of_not_mem (by simp) ⟨(pushBytes_err s _).symm, (pushBytes_errcode s _).symm, (pushBytes_faultMark s _).symm⟩⟩
  | rd a =>
    have hok : ∃ v, busRead a s = .ok v := by
      simp only [feeds, Bool.or_eq_true, beq_iff_eq] at hi
      obtain ((rfl | rfl) | rfl) | rfl := hi
      · exact ⟨_, busRead_status s⟩
      · exact ⟨_, busRead_errcode s⟩
      · exact ⟨_, busRead_lenLo s⟩
      · exact ⟨_, busRead_lenHi s⟩
    obtain ⟨v, hv⟩ := hok
    exact ⟨_, exec_rd_of_ok hv, hnil, rfl, .of_not_mem (by simp) ⟨rfl, rfl, rfl⟩⟩

end Sys2Proof.Machine

open Sys2Proof.Machine in
/-- Settles O40: INIT absorbs nothing, and `exec_feeds`. -/
theorem pushesExtendTheAbsorbedMessage : Obligations.PushesExtendTheAbsorbedMessage := by
  refine ⟨fun s => ⟨_, rfl, init_absorbed s⟩, fun m s i hs hi => ?_⟩
  obtain ⟨t, ht, habsorbed, -, -⟩ := exec_feeds hs hi
  exact ⟨t, ht, habsorbed⟩

open Sys2Proof.Machine in
/-- Settles O41: the blocks of PadFinal continue the full blocks of m, so H after them is that after all of Pad(m). -/
theorem finalLeavesTheDigestOfTheMessage : Obligations.FinalLeavesTheDigestOfTheMessage := by
  intro m s hs
  have hexec : exec .final s = .next (((padFinal s).setBuflen 0).setPhase .done) := by
    obtain ⟨hp, -⟩ := hs
    exact execFinal_absorb hp
  obtain ⟨hdone, hlen, hbuflen, hchain⟩ := hs.final
  exact ⟨hs.finalBlocks_eq, fun _ => blockAt_pad m, _, hexec, padFinal_chain_eq s, hchain, hdone, hbuflen, hlen,
    padFinal_err s, padFinal_errcode s⟩

end

section
/-! O42 to O44. A run of a program is the run of its operations one after another, so INIT, the operations of a message and
FINAL leave its digest, and the reads after them return it (R83, R87, R88). -/

namespace Sys2Proof.Machine

/-! ### Runs of a program -/

theorem programOf_cons (i : Instr) (is : List Instr) : programOf (i :: is) = .transaction (encode i) :: programOf is := rfl

theorem programOf_append (is js : List Instr) : programOf (is ++ js) = programOf is ++ programOf js := List.map_append

/-- A step of a program runs its next operation, with the read data not valid. -/
theorem steps_program {s u : State} {i : Instr} {q : List HostEvent} (k : Nat)
    (hhost : s.host = .transaction (encode i) :: q) (h : exec i ((s.setHost q).setRdata none) = .next u) :
    steps (k + 1) s = steps k u :=
  steps_succ k ((step_transaction hhost).trans ((transact_encode i _).trans h))

theorem steps_add {s u : State} {j : Nat} (k : Nat) (h : steps j s = .next u) : steps (j + k) s = steps k u := by
  induction j generalizing s with
  | zero => cases h; rw [Nat.zero_add]
  | succ j ih =>
    obtain ⟨v, hv, hu⟩ := steps_succ_cases h
    rw [Nat.add_right_comm, steps_succ _ hv, ih hu]

/-! ### From INIT to FINAL -/

theorem State.Absorbed.setHost_setRdata {m : List Byte} {s : State} (h : s.Absorbed m) (q : List HostEvent)
    (r : Option Word) : ((s.setHost q).setRdata r).Absorbed m := h

theorem feeding_run {body : List Instr} {m : List Byte} {s : State} {q : List HostEvent} (hs : s.Absorbed m)
    (hfeeds : ∀ i ∈ body, feeds i = true) (hhost : s.host = programOf body ++ q) :
    ∃ t, steps body.length s = .next t ∧ t.Absorbed (m ++ messageOf body) ∧ t.host = q ∧ ErrorStateAfter body s t := by
  induction body generalizing m s with
  | nil => exact ⟨s, rfl, (List.append_nil m).symm ▸ hs, hhost, .of_not_mem List.not_mem_nil ⟨rfl, rfl, rfl⟩⟩
  | cons i is ih =>
    have hs' := hs.setHost_setRdata (programOf is ++ q) none
    obtain ⟨u, hu, habsorbed, huhost, herror⟩ := exec_feeds hs' (hfeeds i List.mem_cons_self)
    obtain ⟨t, ht, habsorbed', hthost, herror'⟩ := ih habsorbed (fun j hj => hfeeds j (List.mem_cons_of_mem i hj)) huhost
    refine ⟨t, (steps_program is.length hhost hu).trans ht, ?_, hthost, ErrorStateAfter.append (is := [i]) herror herror'⟩
    rwa [List.append_assoc] at habsorbed'

theorem sameErrorState_padFinal (s : State) : SameErrorState s (((padFinal s).setBuflen 0).setPhase .done) :=
  ⟨(padFinal_err s).symm, (padFinal_errcode s).symm, (padFinal_faultMark s).symm⟩

/-- From any state, INIT, the operations of a message and FINAL leave its digest. -/
theorem message_run {body : List Instr} {s : State} {q : List HostEvent} (hfeeds : ∀ i ∈ body, feeds i = true)
    (hhost : s.host = programOf (.init :: body ++ [.final]) ++ q) :
    ∃ t, steps (body.length + 2) s = .next t ∧ t.Digested (messageOf body) ∧ t.host = q ∧ ErrorStateAfter body s t := by
  have hhost' : s.host = .transaction (encode .init) :: (programOf body ++ (.transaction (encode .final) :: q)) := by
    rw [hhost, programOf_append, List.append_assoc]
    rfl
  obtain ⟨u, hu, habsorbed, huhost, herror⟩ := feeding_run
    (init_absorbed ((s.setHost (programOf body ++ (.transaction (encode .final) :: q))).setRdata none)) hfeeds rfl
  have hfinal : exec .final ((u.setHost q).setRdata none) =
      .next (((padFinal ((u.setHost q).setRdata none)).setBuflen 0).setPhase .done) := by
    obtain ⟨hp, -⟩ := habsorbed
    exact execFinal_absorb hp
  refine ⟨_, ?steps, (habsorbed.setHost_setRdata q none).final, padFinal_host _, ?error⟩
  case steps =>
    rw [steps_program (body.length + 1) hhost' rfl, steps_add 1 hu, steps_program 0 huhost hfinal, steps_zero]
  case error =>
    have hkept := sameErrorState_padFinal ((u.setHost q).setRdata none)
    exact List.append_nil body ▸ herror.append (.of_not_mem List.not_mem_nil hkept)

/-! ### Reading the digest -/

/-- Digest reads in DONE write the read data only: the last one leaves its word of H there. -/
theorem digest_reads_run {js : List (Fin 5)} {j : Fin 5} {s : State} {q : List HostEvent} (hp : s.phase = .done)
    (hhost : s.host = programOf (js.map fun j => rdOf (.digest j)) ++ .transaction (encode (rdOf (.digest j))) :: q) :
    steps (js.length + 1) s = .next { s with rdata := some s.chain[j], host := q } := by
  have hread (s : State) (hp : s.phase = .done) (j : Fin 5) (q : List HostEvent) :
      exec (rdOf (.digest j)) ((s.setHost q).setRdata none) = .next { s with rdata := some s.chain[j], host := q } :=
    (exec_rd_of_digestReady (busRead_digest ((s.setHost q).setRdata none) j)).1 hp
  induction js generalizing s with
  | nil => exact steps_program 0 hhost (hread s hp j q)
  | cons i is ih => exact (steps_program (is.length + 1) hhost (hread s hp i _)).trans (ih hp rfl)

/-- The reads of RDDIGEST before that of word j, and those after it. -/
theorem rdDigestOps_split (j : Fin 5) : rdDigestOps = ((List.finRange 5).take j).map (fun j => rdOf (.digest j)) ++
    rdOf (.digest j) :: ((List.finRange 5).drop (j + 1)).map (fun j => rdOf (.digest j)) := by
  fin_cases j <;> rfl

/-- The first j + 1 reads of RDDIGEST leave word j on the read data. -/
theorem rdDigest_run {s : State} {q : List HostEvent} (j : Fin 5) (hp : s.phase = .done)
    (hhost : s.host = programOf rdDigestOps ++ q) :
    ∃ q', steps (j.val + 1) s = .next { s with rdata := some s.chain[j], host := q' } := by
  rw [rdDigestOps_split j, programOf_append, programOf_cons, List.append_assoc, List.cons_append] at hhost
  have hlength : ((List.finRange 5).take j).length = j.val := by simp
  exact ⟨_, hlength ▸ digest_reads_run hp hhost⟩

theorem messageOf_pushBytesOps (m : List Byte) : messageOf (pushBytesOps m) = m := by
  simp [messageOf, pushBytesOps, pushedBytes, List.flatMap_map]

theorem feeds_of_mem_pushBytesOps {m : List Byte} {i : Instr} (h : i ∈ pushBytesOps m) : feeds i = true ∧ i ≠ .clrerr := by
  obtain ⟨b, -, rfl⟩ := List.mem_map.1 h
  exact ⟨rfl, nofun⟩

end Sys2Proof.Machine

open Sys2Proof.Machine in
/-- Settles O42: `message_run`. -/
theorem wellFormedRunComputesSha1 : Obligations.WellFormedRunComputesSha1 := by
  intro s body q hfeeds hhost
  obtain ⟨t, ht, ⟨hdone, hlen, hbuflen, hchain⟩, hthost, hmark, hkept, hcleared⟩ := message_run hfeeds hhost
  exact ⟨t, ht, hdone, hchain, hlen, hbuflen, hthost, hmark, hkept, hcleared⟩

open Sys2Proof.Machine in
/-- Settles O43: the run of the message, then the reads up to that of word j. -/
theorem hashReturnsTheDigest : Obligations.HashReturnsTheDigest := by
  intro m s q j hhost
  have hhost' : s.host = programOf (.init :: pushBytesOps m ++ [.final]) ++ (programOf rdDigestOps ++ q) := by
    rw [hhost, hashOps, programOf_append, List.append_assoc]
    rfl
  obtain ⟨t, ht, ⟨hdone, -, -, hchain⟩, hthost, hmark, hkept, -⟩ :=
    message_run (fun i hi => (feeds_of_mem_pushBytesOps hi).1) hhost'
  obtain ⟨q', hread⟩ := rdDigest_run j hdone hthost
  have hsteps : m.length + 3 + j.val = (pushBytesOps m).length + 2 + (j.val + 1) := by
    rw [pushBytesOps, List.length_map]
    omega
  rw [hsteps, steps_add _ ht, hread, hchain, messageOf_pushBytesOps]
  obtain ⟨herr, hcode⟩ := hkept fun hc => (feeds_of_mem_pushBytesOps hc).2 rfl
  exact ⟨_, rfl, rfl, hmark, hmark.trans, herr, hcode⟩

open Sys2Proof Sys2Proof.Machine in
/-- Settles O44: both runs leave the digest of the one message in DONE, and a read from 0x20 on reads no more than that. -/
theorem digestDependsOnTheBytesAlone : Obligations.DigestDependsOnTheBytesAlone := by
  intro s1 s2 t1 t2 body1 body2 q1 q2 hfeeds1 hfeeds2 hmessage hhost1 hhost2 ht1 ht2
  obtain ⟨u1, hu1, ⟨hdone1, hlen1, -, hchain1⟩, -⟩ := message_run hfeeds1 hhost1
  obtain ⟨u2, hu2, ⟨hdone2, hlen2, -, hchain2⟩, -⟩ := message_run hfeeds2 hhost2
  cases ht1.symm.trans hu1
  cases ht2.symm.trans hu2
  have hchain : t1.chain = t2.chain := by rw [hchain1, hchain2, hmessage]
  have hlen : t1.len = t2.len := by rw [hlen1, hlen2, hmessage]
  have hlow {a c : Addr} (ha : 0x20 ≤ a.toNat) (hc : c.toNat < 0x20) : a ≠ c := by
    rintro rfl
    omega
  exact ⟨hchain, hlen, fun a ha => busRead_congr (hdone1.trans hdone2.symm) hlen
    (absurd · (hlow ha (by decide))) (absurd · (hlow ha (by decide))) fun _ => hchain⟩

end

section
/-! O49. While no fault mark is set, the message the host means is the one the core has: absorbed so far, or digested. Every
event keeps that, and a mark set on the way would still be there at the end (R96). -/

namespace Sys2Proof.Machine

/-- The core has the message `m`: it absorbs it, or has ended it. -/
def HasMessage (m : List Byte) (s : State) : Prop := s.Absorbed m ∨ s.Digested m

theorem HasMessage.absorbed {m : List Byte} {s : State} (h : HasMessage m s) (hp : s.phase = .absorb) : s.Absorbed m := by
  obtain h | ⟨hdone, -⟩ := h
  · exact h
  · cases hp.symm.trans hdone

theorem exec_keeps_hasMessage {m : List Byte} {i : Instr} {s t : State} (hs : HasMessage m s) (hi : i ≠ .init)
    (h : exec i s = .next t) (ht : t.noFault) : HasMessage (m ++ pushedBytes i) t := by
  have hnil := (List.append_nil m).symm ▸ hs
  rcases exec_cases h with ⟨rfl, rfl⟩ | ⟨rfl, rfl⟩ | ⟨b, rfl, hp, rfl⟩ | ⟨rfl, hp, rfl⟩ | ⟨rfl, rfl⟩ | ⟨w, rfl, hp, rfl⟩ |
    ⟨a, v, rfl, _, rfl⟩ | ⟨a, e, rfl, _, rfl⟩ | ⟨_, _, rfl⟩
  · exact hnil
  · exact absurd rfl hi
  · exact .inl ((hs.absorbed hp).pushByte b)
  · exact .inr (hnil.absorbed hp).final
  · exact hnil
  · exact .inl ((hs.absorbed hp).pushBytes _)
  · exact hnil
  · exact absurd ((raiseError_faultMark s e).symm.trans ht) nofun
  · exact absurd ((raiseError_faultMark s .ePhase).symm.trans ht) nofun

theorem meantAfter_init {x : Transaction} (meant : Option (List Byte)) (hd : decode x = .ok .init) :
    meantAfter meant (.transaction x) = some [] := by
  simp only [meantAfter, hd]

theorem meantAfter_ok {x : Transaction} {i : Instr} (meant : Option (List Byte)) (hd : decode x = .ok i) (hi : i ≠ .init) :
    meantAfter meant (.transaction x) = meant.map (· ++ pushedBytes i) := by
  cases i with
  | init => exact absurd rfl hi
  | nop | pushb b | final | clrerr | pushw w | rd a => simp only [meantAfter, hd]

/-- The core has the message meant, where one is. -/
def HasMeant (meant : Option (List Byte)) (s : State) : Prop := ∀ m, meant = some m → HasMessage m s

theorem perform_keeps_hasMeant {meant : Option (List Byte)} {e : HostEvent} {s t : State} (hs : HasMeant meant s)
    (h : perform e s = .next t) (ht : t.noFault) : HasMeant (meantAfter meant e) t := by
  intro m hm
  cases e with
  | reset => cases hm
  | transaction x =>
    obtain ⟨i, hd, hi⟩ | ⟨e, hd, rfl⟩ := transact_cases h
    · by_cases hinit : i = .init
      · subst hinit
        cases hi
        cases (meantAfter_init meant hd).symm.trans hm
        exact .inl (init_absorbed _)
      · obtain ⟨m', hmeant, rfl⟩ := Option.map_eq_some_iff.1 ((meantAfter_ok meant hd hinit).symm.trans hm)
        exact exec_keeps_hasMessage (s := s.setRdata none) (hs m' hmeant) hinit hi ht
    · exact absurd ((raiseError_faultMark _ e).symm.trans ht) nofun

theorem step_perform {s : State} {e : HostEvent} {q : List HostEvent} (h : s.host = e :: q) :
    step s = perform e (s.setHost q) := by
  rw [step, h]

theorem perform_host {e : HostEvent} {s t : State} (h : perform e s = .next t) : t.host = s.host := by
  cases e with
  | reset => cases h; rfl
  | transaction x =>
    obtain ⟨i, -, hi⟩ | ⟨e, -, rfl⟩ := transact_cases h
    · exact (exec_host_draws hi).1
    · exact raiseError_host _ e

theorem noFault_of_steps {k : Nat} {s t : State} (h : steps k s = .next t) (ht : t.noFault) : s.noFault :=
  eq_false_of_ne_true fun hs => absurd ((steps_keeps (P := fun s => s.faultMark = true)
    (fun _ _ => step_keeps_faultMark) hs h).symm.trans ht) nofun

/-- Along a run that ends with no fault mark the core has the message meant. -/
theorem steps_hasMeant {es q : List HostEvent} {meant : Option (List Byte)} {s t : State} (hs : HasMeant meant s)
    (hhost : s.host = es ++ q) (h : steps es.length s = .next t) (ht : t.noFault) :
    HasMeant (es.foldl meantAfter meant) t := by
  induction es generalizing meant s with
  | nil => cases h; exact hs
  | cons e es ih =>
    obtain ⟨u, hu, hrest⟩ := steps_succ_cases h
    rw [step_perform hhost] at hu
    exact ih (perform_keeps_hasMeant (s := s.setHost (es ++ q)) hs hu (noFault_of_steps hrest ht)) (perform_host hu) hrest

end Sys2Proof.Machine

open Sys2Proof.Machine in
/-- Settles O49: the run starts with no message meant, and in DONE the message meant is the one digested. -/
theorem faultFreeRunLeavesTheDigestMeant : Obligations.FaultFreeRunLeavesTheDigestMeant := by
  intro s t es q m hhost h ht hm
  obtain ⟨hp, hlen, -⟩ | ⟨hp, hlen, -, hchain⟩ := steps_hasMeant (meant := none) nofun hhost h ht m hm
  · exact ⟨hp ▸ nofun, hlen, fun hd => absurd (hp.symm.trans hd) nofun⟩
  · have hready : digestReady t = true := (digestReady_iff t).2 hp
    refine ⟨hp ▸ nofun, hlen, fun _ => ⟨hchain, fun j => ?_, fun j => ?_⟩⟩
    · rw [busRead_digest, if_pos hready, hchain]
    · rw [busRead_hex, if_pos hready, hchain]

end

section
/-! O47, O48. The edges of the port: one equation per case, then the edges of a transaction however long it waits (R36,
R100, R104). -/

namespace Sys2Proof.Machine

/-! ### One edge -/

section
variable {e : Edge} {p : Port}

theorem edge_reset (hrst : e.rst = true) : p.edge e = .next ⟨resetCore p.core, true, none⟩ := by
  rw [Port.edge, if_pos hrst]

theorem edge_unstable (hrst : e.rst = false) (h : e.stable p.held = false) :
    p.edge e = .refused .unstableTransaction := by
  simp [Port.edge, hrst, h]

theorem edge_idle (hrst : e.rst = false) (h : e.stable p.held = true) (hreq : e.req = false) : p.edge e = .next p := by
  simp [Port.edge, hrst, h, hreq]

theorem edge_early (hrst : e.rst = false) (h : e.stable p.held = true) (hreq : e.req = true) (hearly : p.wasReset = false) :
    p.edge e = .refused .beforeFirstReset := by
  simp [Port.edge, hrst, h, hreq, hearly]

theorem edge_wait (hrst : e.rst = false) (h : e.stable p.held = true) (hreq : e.req = true) (hwas : p.wasReset = true)
    (hready : e.ready = false) : p.edge e = .next { p with held := some e.transaction } := by
  simp [Port.edge, hrst, h, hreq, hwas, hready]

theorem edge_complete {u : State} (hrst : e.rst = false) (h : e.stable p.held = true) (hreq : e.req = true)
    (hwas : p.wasReset = true) (hready : e.ready = true) (hu : transact e.transaction p.core = .next u) :
    p.edge e = .next ⟨u, true, none⟩ := by
  simp [Port.edge, hrst, h, hreq, hwas, hready, hu]

/-- What an edge can do: go on, or refuse one of the two broken duties. -/
theorem edge_cases (e : Edge) (p : Port) : (∃ q, p.edge e = .next q) ∨
    (p.edge e = .refused .unstableTransaction ∧ e.rst = false ∧ e.stable p.held = false) ∨
    (p.edge e = .refused .beforeFirstReset ∧ e.rst = false ∧ e.stable p.held = true ∧ e.req = true ∧
      p.wasReset = false) := by
  cases hrst : e.rst
  case true => exact .inl ⟨_, edge_reset hrst⟩
  cases h : e.stable p.held
  case false => exact .inr (.inl ⟨edge_unstable hrst h, rfl, rfl⟩)
  cases hreq : e.req
  case false => exact .inl ⟨p, edge_idle hrst h hreq⟩
  cases hwas : p.wasReset
  case false => exact .inr (.inr ⟨edge_early hrst h hreq hwas, rfl, rfl, rfl, rfl⟩)
  cases hready : e.ready
  case false => exact .inl ⟨_, edge_wait hrst h hreq hwas hready⟩
  obtain ⟨u, hu⟩ := transact_next e.transaction p.core
  exact .inl ⟨_, edge_complete hrst h hreq hwas hready hu⟩

theorem unstable_iff (e : Edge) (held : Option Transaction) : e.stable held = false ↔
    ∃ t, held = some t ∧ ¬(e.req = true ∧ e.we = t.we ∧ e.addr = t.addr ∧ e.wdata = t.wdata) := by
  cases held with
  | none => simp [Edge.stable]
  | some t => obtain ⟨we, a, v⟩ := t; simp [Edge.stable, Edge.transaction]

theorem stable_iff_of_req (hreq : e.req = true) (held : Option Transaction) :
    e.stable held = true ↔ held = none ∨ held = some e.transaction := by
  cases held with
  | none => simp [Edge.stable]
  | some t =>
    simp only [Edge.stable, hreq, Bool.true_and, beq_iff_eq, Option.some.injEq, reduceCtorEq, false_or]
    exact eq_comm

theorem edge_eq_unstable_iff : p.edge e = .refused .unstableTransaction ↔ e.rst = false ∧ e.stable p.held = false := by
  refine ⟨fun h => ?_, fun ⟨hrst, h⟩ => edge_unstable hrst h⟩
  obtain ⟨q, hq⟩ | ⟨-, hrst, hun⟩ | ⟨hearly, -⟩ := edge_cases e p
  · cases hq.symm.trans h
  · exact ⟨hrst, hun⟩
  · cases hearly.symm.trans h

theorem edge_eq_early_iff : p.edge e = .refused .beforeFirstReset ↔
    e.rst = false ∧ p.wasReset = false ∧ e.req = true ∧ e.stable p.held = true := by
  refine ⟨fun h => ?_, fun ⟨hrst, hwas, hreq, h⟩ => edge_early hrst h hreq hwas⟩
  obtain ⟨q, hq⟩ | ⟨hun, -⟩ | ⟨-, hrst, hst, hreq, hwas⟩ := edge_cases e p
  · cases hq.symm.trans h
  · cases hun.symm.trans h
  · exact ⟨hrst, hwas, hreq, hst⟩

end

/-! ### The edges of one transaction -/

theorem Port.run_append {es : List Edge} {p q : Port} (fs : List Edge) (h : Port.run es p = .next q) :
    Port.run (es ++ fs) p = Port.run fs q := by
  induction es generalizing p with
  | nil => cases h; rfl
  | cons e es ih =>
    rw [Port.run] at h
    rw [List.cons_append, Port.run]
    split at h
    · exact ih h
    · cases h
    · cases h

/-- Edges that each leave a port as it is. -/
theorem Port.run_replicate {e : Edge} {p : Port} (n : Nat) (h : p.edge e = .next p) :
    Port.run (List.replicate n e) p = .next p := by
  induction n with
  | zero => rfl
  | succ n ih => rw [List.replicate_succ, Port.run, h]; exact ih

/-- Waiting for `ready` a transaction is held, and nothing else happens. -/
theorem Port.run_wait {e : Edge} {s : State} (hrst : e.rst = false) (hreq : e.req = true) (hready : e.ready = false)
    (n : Nat) : ∃ held, (held = none ∨ held = some e.transaction) ∧
      Port.run (List.replicate n e) ⟨s, true, none⟩ = .next ⟨s, true, held⟩ := by
  cases n with
  | zero => exact ⟨none, .inl rfl, rfl⟩
  | succ n =>
    have hfirst : Port.edge e ⟨s, true, none⟩ = .next ⟨s, true, some e.transaction⟩ :=
      edge_wait hrst ((stable_iff_of_req hreq _).2 (.inl rfl)) hreq rfl hready
    have hnext : Port.edge e ⟨s, true, some e.transaction⟩ = .next ⟨s, true, some e.transaction⟩ :=
      edge_wait hrst ((stable_iff_of_req hreq _).2 (.inr rfl)) hreq rfl hready
    refine ⟨some e.transaction, .inr rfl, ?_⟩
    rw [List.replicate_succ, Port.run, hfirst]
    exact Port.run_replicate n hnext

/-- However long it waits, the edges of a transaction complete it. -/
theorem Port.run_edgesOf {x : Nat × Nat × Transaction} {s u : State} (hu : transact x.2.2 s = .next u) :
    Port.run (edgesOf x) ⟨s, true, none⟩ = .next ⟨u, true, none⟩ := by
  obtain ⟨idle, wait, t⟩ := x
  obtain ⟨held, hheld, hwait⟩ := Port.run_wait (e := ⟨false, true, t.we, t.addr, t.wdata, false⟩) (s := s) rfl rfl rfl wait
  have hdone : Port.edge ⟨false, true, t.we, t.addr, t.wdata, true⟩ ⟨s, true, held⟩ = .next ⟨u, true, none⟩ :=
    edge_complete rfl ((stable_iff_of_req rfl _).2 hheld) rfl rfl rfl hu
  rw [edgesOf, List.append_assoc, Port.run_append _ (Port.run_replicate idle (edge_idle rfl rfl rfl)),
    Port.run_append _ hwait, Port.run, hdone]
  rfl

/-! ### A transaction does not see what the host presents after it -/

theorem setHost_carries (q : List HostEvent) : Carries (fun s t => t = s.setHost q) (fun s t => t = s.setHost q) where
  phase := by rintro s t rfl; rfl
  dropRdata := by rintro s t rfl; rfl
  keep := id
  init := by rintro s t rfl; rfl
  pushBytes := by
    rintro s t rfl - bs
    exact State.ext_fields (pushBytes_chain_congr bs rfl rfl rfl) (pushBytes_buf_congr bs rfl rfl)
      (pushBytes_buflen_congr bs rfl) (pushBytes_len_congr bs rfl) (by simp) (by simp) (by simp) (by simp) (by simp) (by simp)
      (by simp)
  final := by
    rintro s t rfl -
    obtain ⟨hchain, hbuf⟩ := padFinal_congr (s := s.setHost q) (t := s) rfl rfl rfl rfl
    exact State.ext_fields hchain hbuf rfl (by simp) rfl (by simp) (by simp) (by simp) (by simp) (by simp) (by simp)
  clearError := by rintro s t rfl; rfl
  raiseError := by rintro s t rfl e; rw [raiseError_eq, raiseError_eq]; rfl
  readOk := by
    rintro s t rfl a v w hv hw
    cases hv.symm.trans hw
    rfl
  readError := by rintro s t rfl e; rw [raiseError_eq, raiseError_eq]; rfl

theorem transact_setHost {x : Transaction} {s u : State} (q : List HostEvent) (h : transact x s = .next u) :
    transact x (s.setHost q) = .next (u.setHost q) := by
  obtain ⟨v, hv, rfl⟩ := (setHost_carries q).transact rfl h
  exact hv

end Sys2Proof.Machine

open Sys2Proof.Machine in
/-- Settles O47, by induction along the plan: the edges of a transaction and a step of the host's list both perform it. -/
theorem readyDelayIsInvisible : Obligations.ReadyDelayIsInvisible := by
  intro plan
  induction plan with
  | nil => exact fun s => ⟨s, rfl, rfl⟩
  | cons x plan ih =>
    intro s
    obtain ⟨u, hu⟩ := transact_next x.2.2 s
    obtain ⟨t, hedges, hsteps⟩ := ih u
    refine ⟨t, ?_, ?_⟩
    · rw [List.flatMap_cons, Port.run_append _ (Port.run_edgesOf hu), hedges]
    · have hstep : step (s.setHost ((x :: plan).map fun x => .transaction x.2.2)) =
          .next (u.setHost (plan.map fun x => .transaction x.2.2)) :=
        (step_transaction (State.setHost_host _ _)).trans (transact_setHost (s := s) _ hu)
      exact (steps_succ plan.length hstep).trans hsteps

open Sys2Proof.Machine in
/-- Settles O48: `edge_cases`, with the duty of R36 written out. -/
theorem portRefusesOnlyBrokenDuties : Obligations.PortRefusesOnlyBrokenDuties := by
  intro e p
  refine ⟨edge_reset, ?unstable, ?early, fun r h => ?refused, fun r => ?fault⟩
  case unstable => rw [edge_eq_unstable_iff, unstable_iff]
  case early =>
    rw [edge_eq_early_iff]
    exact and_congr_right' (and_congr_right' (and_congr_right fun hreq => stable_iff_of_req hreq p.held))
  case refused =>
    obtain ⟨q, hq⟩ | ⟨hun, -⟩ | ⟨hearly, -⟩ := edge_cases e p
    · cases hq.symm.trans h
    · cases hun.symm.trans h
      exact .inl rfl
    · cases hearly.symm.trans h
      exact .inr rfl
  case fault => cases r

end
